-- ==== Sys2Proof/Word.lean ====
section
/-! DEFINITION. The word types of the block's ports (formats DATA, CODE, SYN of 30_encoding.md R60 to R62) and the host's bit
sequences (00_scope.md R10). -/

namespace Sys2Proof

/-- Format DATA, the 4-bit DataBlock (R2, R60). -/
abbrev Data := BitVec 4

/-- Format CODE, the 7-bit word: four data bits, then three parity bits (R2, R61). -/
abbrev Code := BitVec 7

/-- Format SYN, the 3-bit syndrome (R2, R62). -/
abbrev Syn := BitVec 3

/-- A bit sequence in sequence order, position 0 first (R10). -/
abbrev Bits := List Bool

end Sys2Proof
end

