-- ==== Sys2Proof/Machine/BitOrder.lean ====
section
/-! DEFINITION. Sequence positions and vector bits (00_scope.md R10, R12; 20_memory.md R42), and the operators `flip`, `popcount`
and distance (R13). -/

namespace Sys2Proof.Machine

/-- A port word as a bit sequence: position i is vector bit W-1-i (R12, R42). -/
def toSeq {w : Nat} (v : BitVec w) : Bits :=
  (List.range w).map fun i => v.getLsbD (w - 1 - i)

/-- A bit string read as a binary numeral, position 0 the most significant digit (R12). -/
def seqValue (bits : Bits) : Nat := bits.foldl (fun n b => 2 * n + b.toNat) 0

/-- A bit sequence as a port word: the vector, read as a number, is the string read as a numeral (R12). -/
def ofSeq (w : Nat) (bits : Bits) : BitVec w := BitVec.ofNat w (seqValue bits)

/-- `w[a..b]` on a sequence: positions a to b inclusive (R13). -/
def slice (bits : Bits) (a b : Nat) : Bits := (bits.drop a).take (b + 1 - a)

/-- The CODE word whose only 1 is at sequence position `pos`, vector bit `6 - pos` (R115). -/
def oneAt (pos : Fin 7) : Code := 1#7 <<< (6 - pos.val)

/-- `flip(w, i)` on a CODE word: sequence position i inverted (R13). -/
def flipAt (w : Code) (i : Fin 7) : Code := w ^^^ oneAt i

/-- `flip(w, i)` on a bit sequence of any length (R13). -/
def flipSeq (bits : Bits) (i : Nat) : Bits := bits.modify i not

/-- The number of 1 bits of a word (R13), its weight. -/
def popcount {w : Nat} (v : BitVec w) : Nat := (toSeq v).count true

/-- The distance of two words: the weight of their XOR (00_scope.md section 5). -/
def distance {w : Nat} (a b : BitVec w) : Nat := popcount (a ^^^ b)

end Sys2Proof.Machine
end

