-- ==== Sys2Proof/Syntax.lean ====
section
/-! DEFINITION. The ports, what a host may put on them, and the two operations (10_state.md R24, R25; 30_encoding.md R66;
60_exceptions.md R150, R153, R164). -/

namespace Sys2Proof

/-- The two input ports. Which of them the host drives selects the operation: there is no opcode field (R66). -/
inductive InPort where
  /-- `enc_data_i[3:0]`, the encoder's input (R24). -/
  | encDataI
  /-- `dec_code_i[6:0]`, the decoder's input (R25). -/
  | decCodeI
  deriving DecidableEq, Repr

/-- The four output ports (R24, R25). -/
inductive OutPort where
  /-- `enc_code_o[6:0]`, the codeword (R24). -/
  | encCodeO
  /-- `dec_data_o[3:0]`, the decoded data block (R25). -/
  | decDataO
  /-- `dec_syndrome_o[2:0]`, observation port (R25, R118). -/
  | decSyndromeO
  /-- `dec_corrected_o[6:0]`, observation port (R25, R118). -/
  | decCorrectedO
  deriving DecidableEq, Repr

/-- The width of an input port (R24, R25). -/
def InPort.width : InPort → Nat
  | .encDataI => 4
  | .decCodeI => 7

/-- The input port of the sub-block an output belongs to: the only input it depends on (R20, R26). -/
def OutPort.source : OutPort → InPort
  | .encCodeO => .encDataI
  | .decDataO => .decCodeI
  | .decSyndromeO => .decCodeI
  | .decCorrectedO => .decCodeI

/-- One bit as a host may try to drive it. Only `zero` and `one` are admitted (R26, R153). -/
inductive HostBit where
  | zero
  | one
  /-- An unknown value (R153). -/
  | unknown
  /-- A high-impedance input (R153). -/
  | highZ
  deriving DecidableEq, Repr

/-- What the host presents to an input port: the bits in sequence order, of whatever length (R150). -/
structure HostBlock where
  port : InPort
  bits : List HostBit
  deriving DecidableEq, Repr

/-- One move of the host (the table of R164): drive an input port with a block, or read an output port. -/
inductive HostMove where
  | drive (block : HostBlock)
  | read (port : OutPort)
  deriving DecidableEq, Repr

/-- Why the host boundary does not admit a block (R150, R153). -/
inductive Reject where
  /-- `BadLength(port, length)`: the block is not as wide as the port (R150). -/
  | badLength (port : InPort) (length : Nat)
  /-- `UnknownBit(port, bit)`: vector bit `bit` of the block is not two-valued (R153). -/
  | unknownBit (port : InPort) (bit : Nat)
  deriving DecidableEq, Repr

/-- The operations of the block: one constructor per row of spec/opcode_table.json (R66). -/
inductive Instr where
  /-- `ENC`: drive `enc_data_i` with `d` (R90). -/
  | enc (d : Data)
  /-- `DEC`: drive `dec_code_i` with `c` (R110). -/
  | dec (c : Code)
  deriving DecidableEq, Repr

end Sys2Proof
end

