-- ==== Sys2Proof/WellFormed.lean ====
section
/-! DEFINITION. Which host blocks the boundary admits (60_exceptions.md R150, R153), and that every operation on words of its
port's width is legal (30_encoding.md R67). -/

namespace Sys2Proof

/-- A two-valued bit (R26, R153). -/
def HostBit.isKnown : HostBit → Bool
  | .zero => true
  | .one => true
  | .unknown => false
  | .highZ => false

/-- The block is exactly as wide as the port it is presented to (R150). -/
def HostBlock.lengthOk (b : HostBlock) : Bool := b.bits.length == b.port.width

/-- Every bit of the block is two-valued (R153). -/
def HostBlock.allKnown (b : HostBlock) : Bool := b.bits.all HostBit.isKnown

/-- A block the boundary admits (R150, R153). -/
def HostBlock.wellFormed (b : HostBlock) : Bool := b.lengthOk && b.allKnown

/-- Every operation is well formed: no 4-bit and no 7-bit input value is illegal, reserved or a hint (R67). -/
def Instr.wellFormed : Instr → Bool
  | .enc _ => true
  | .dec _ => true

end Sys2Proof
end

