-- ==== Sys2Proof/Decode.lean ====
section
/-! DEFINITION. The boundary between host data and port words: decode admits a block as an operation or rejects it by name
(60_exceptions.md R150, R153, R155), encode lays an operation's word out as the host presents it (20_memory.md R42). -/

namespace Sys2Proof

/-- The value of a two-valued bit; a bit the boundary refuses has none (R153). -/
def HostBit.value : HostBit → Option Bool
  | .zero => some false
  | .one => some true
  | .unknown => none
  | .highZ => none

/-- A two-valued bit as the host drives it. -/
def HostBit.ofBool (b : Bool) : HostBit := if b then .one else .zero

/-- The first sequence position that is not two-valued. Which one the refusal names when there are several is a DESIGN CHOICE
(log entry 3, safe). -/
def firstUnknown (bits : List HostBit) : Option Nat := bits.findIdx? fun b => !b.isKnown

/-- The values of the two-valued bits of a block, in order. -/
def knownBits (bits : List HostBit) : Bits := bits.filterMap HostBit.value

/-- The operation that driving a port with a sequence of the port's width performs (R66). -/
def instrAt : InPort → Bits → Instr
  | .encDataI, bits => .enc (Machine.ofSeq 4 bits)
  | .decCodeI, bits => .dec (Machine.ofSeq 7 bits)

/-- `admit_enc` and `admit_dec` (R150): length first, then unknown bits (R153, R155); what is left is an operation. -/
def decode (b : HostBlock) : Except Reject Instr :=
  if b.bits.length = b.port.width then
    match firstUnknown b.bits with
    | some i => .error (.unknownBit b.port (b.port.width - 1 - i))
    | none => .ok (instrAt b.port (knownBits b.bits))
  else .error (.badLength b.port b.bits.length)

/-- A bit sequence as the host presents it to a port. -/
def blockOf (port : InPort) (bits : Bits) : HostBlock := ⟨port, bits.map HostBit.ofBool⟩

/-- The block a host presents to have an operation performed: the word of its row of the operation map, in sequence order
(R42, R60, R61, R66). -/
def encode : Instr → HostBlock
  | .enc d => blockOf .encDataI (Machine.toSeq d)
  | .dec c => blockOf .decCodeI (Machine.toSeq c)

/-- The low n bits of a number as a bit sequence, bit n-1 first (R12). -/
def seqOfNat (n w : Nat) : Bits := Machine.toSeq (BitVec.ofNat n w)

/-- The block that a word of spec/opcode_table.json stands for. The table has no opcode field (R66), so its width selects the
port: 4 bits `enc_data_i`, 7 bits `dec_code_i`. For a width given in whole bytes (8) a word below 16 is read as a DATA word and a
larger one as a CODE word. Any other width is a block the encoder's port does not admit. DESIGN CHOICE, log entry 8, safe. -/
def tableBlock (nbits w : Nat) : HostBlock :=
  if nbits = 7 then blockOf .decCodeI (seqOfNat 7 w)
  else if nbits = 8 then
    if w < 16 then blockOf .encDataI (seqOfNat 4 w)
    else if w < 128 then blockOf .decCodeI (seqOfNat 7 w)
    else blockOf .decCodeI (seqOfNat 8 w)
  else blockOf .encDataI (seqOfNat nbits w)

/-- The operation decode reads from a word of spec/opcode_table.json. -/
def decodeTableWord (nbits w : Nat) : Option Instr :=
  match decode (tableBlock nbits w) with
  | .ok i => some i
  | .error _ => none

end Sys2Proof
end

