-- ==== Sys2Proof/Machine/Constants.lean ====
section
/-! DEFINITION. The two hardwired constants (10_state.md R21 to R23) and the parameters the spec fixes (00_scope.md R9). -/

namespace Sys2Proof.Machine

/-- `N`, the codeword width (R9). -/
def codeWidth : Nat := 7

/-- `K`, the data width (R9). -/
def dataWidth : Nat := 4

/-- `R`, the parity and syndrome width (R9). -/
def parityWidth : Nat := 3

/-- `G`, the generator pattern `1011`, g(x) = x^3 + x + 1 (R3, R22). -/
def gPattern : BitVec 4 := 0b1011#4

/-- `G` as a bit sequence, the divisor of both divisions (R63, R64). -/
def gSeq : Bits := toSeq gPattern

/-- A syndrome table: which sequence position a syndrome selects, if any. The machine has one, `synTable`; the parameterised form
is that of 42_decoder.md R120 and R124. -/
abbrev SynTable := Syn → Option (Fin 7)

/-- `SYN_TABLE` (R23), a direct mapping as its source asks. The all-zero syndrome has no entry (R68). -/
def synTable : SynTable := fun s =>
  if s = 0b001#3 then some 6
  else if s = 0b010#3 then some 5
  else if s = 0b011#3 then some 3
  else if s = 0b100#3 then some 4
  else if s = 0b101#3 then some 0
  else if s = 0b110#3 then some 2
  else if s = 0b111#3 then some 1
  else none

end Sys2Proof.Machine
end

