-- ==== Sys2Proof/Machine/Operands.lean ====
section
/-! DEFINITION. Every operand form: the fields of the formats DATA, CODE and SYN (30_encoding.md R60 to R62) and the dividends of
the two divisions (R63 to R65). -/

namespace Sys2Proof.Machine

/-- The data field of a CODE word, `code[6:3]` (R61). -/
def dataField (c : Code) : Data := c.extractLsb' 3 4

/-- The parity field of a CODE word, `code[2:0]` (R61). -/
def parityField (c : Code) : Syn := c.extractLsb' 0 3

/-- `code = {d, p}` (R61). -/
def codeOf (d : Data) (p : Syn) : Code := d ++ p

/-- A SYN word from its three coefficients, x^2 first (R62). -/
def synOf (x2 x1 x0 : Bool) : Syn := BitVec.ofBool x2 ++ BitVec.ofBool x1 ++ BitVec.ofBool x0

/-- The encoder's dividend `{enc_data_i, 3'b000}` (R63). -/
def encDividend (d : Data) : Code := d ++ 0b000#3

/-- The decoder's dividend, the whole received word (R64). -/
def decDividend (c : Code) : Code := c

/-- The low-order three bits of the 4-bit remainder window: its positions 1 to 3 (R65). -/
def lowThree (window : Bits) : Bits := slice window 1 3

end Sys2Proof.Machine
end

