-- ==== Sys2Proof/Machine/State.lean ====
section
/-! DEFINITION. The state of the machine as plain data: what its six ports carry and the host's moves not yet made; the reasons a
step can end without a next state; the state after reset (10_state.md R20 to R34, 70_reset_and_hazards.md R170 to R173). -/

namespace Sys2Proof.Machine

/-- The block raises nothing: no exception, trap or fault of any kind (60_exceptions.md R151, R154, R156). No step raises a
fault, so the type is empty; that is neither safe nor unsafe, it is the spec's own statement. -/
inductive Fault where
  deriving DecidableEq, Repr

/-- The refusals of the host boundary. -/
inductive Refusal where
  /-- `BadLength(port, length)`: raised by the step that takes a drive move whose block is not as wide as the port (R150). Safe:
  a claim about such a run cannot be proved (92_eei_decisions.md D6). -/
  | badLength (port : InPort) (length : Nat)
  /-- `UnknownBit(port, bit)`: raised by the step that takes a drive move with a bit that is not two-valued (R153), or a read move
  of an output whose input is not driven (R172). Safe (D8, D10). -/
  | unknownBit (port : InPort) (bit : Nat)
  /-- An instruction without a meaning: raised only by a refused arm of exec, and no arm is refused. Safe. -/
  | notModelled (mnemonic : String)
  deriving DecidableEq, Repr

/-- What the ports carry now, and the moves the host has still to make. A port holds `none` until the host has driven the
input of its sub-block: the spec gives it no value before (R172), and decides against zero (91_not_in_source.md N8). -/
structure State where
  /-- The model's own field: the host's moves not yet made, oldest first (R164; log entry 1). -/
  pending : List HostMove
  /-- `enc_data_i[3:0]` (R24). -/
  encDataI : Option Data
  /-- `enc_code_o[6:0]` (R24). -/
  encCodeO : Option Code
  /-- `dec_code_i[6:0]` (R25). -/
  decCodeI : Option Code
  /-- `dec_data_o[3:0]` (R25). -/
  decDataO : Option Data
  /-- `dec_syndrome_o[2:0]` (R25, R118). -/
  decSyndromeO : Option Syn
  /-- `dec_corrected_o[6:0]` (R25, R118). -/
  decCorrectedO : Option Code
  deriving DecidableEq, Repr

/-- After power-up: nothing is driven, so no output has a modelled value, and the host has made no move (R34, R170, R172). -/
def State.reset : State :=
  { pending := [], encDataI := none, encCodeO := none, decCodeI := none, decDataO := none, decSyndromeO := none,
    decCorrectedO := none }

end Sys2Proof.Machine
end

