-- ==== Sys2Proof/Machine/Ops.lean ====
section
/-! DEFINITION. The named operations over the ports: driving a sub-block's ports, reading an output, taking the host's next move.
There is no memory and no register (20_memory.md R40, 10_state.md R28), and no exception to take or return from
(60_exceptions.md R151, R156), so no such operation stands here. -/

namespace Sys2Proof.Machine

/-- The encoder's ports carry an input and the output it gives; nothing else changes (R49, R176). -/
def State.setEncoder (s : State) (d : Data) (code : Code) : State :=
  { s with encDataI := some d, encCodeO := some code }

/-- The decoder's ports carry an input and the outputs it gives; nothing else changes (R49, R176). -/
def State.setDecoder (s : State) (c : Code) (out : Data × Syn × Code) : State :=
  { s with decCodeI := some c, decDataO := some out.1, decSyndromeO := some out.2.1, decCorrectedO := some out.2.2 }

/-- The host's move list replaced (R164). -/
def State.setPending (s : State) (moves : List HostMove) : State := { s with pending := moves }

/-- The host has one more move to make, before those it had. -/
def State.pushMove (s : State) (m : HostMove) : State := s.setPending (m :: s.pending)

/-- What an output port carries, as a bit sequence (R42); nothing if its input is not driven (R172). -/
def State.outSeq (s : State) : OutPort → Option Bits
  | .encCodeO => s.encCodeO.map toSeq
  | .decDataO => s.decDataO.map toSeq
  | .decSyndromeO => s.decSyndromeO.map toSeq
  | .decCorrectedO => s.decCorrectedO.map toSeq

/-- Reading an output port: its current value (R164). An output whose input is not driven has no value in the model, and the read
is refused as R153 refuses the input (R172); the bit named is the input's position 0 (DESIGN CHOICE, log entry 3, safe). -/
def readOut (s : State) (o : OutPort) : Except Refusal Bits :=
  match s.outSeq o with
  | some bits => .ok bits
  | none => .error (.unknownBit o.source (o.source.width - 1))

/-- The boundary's rejection as the refusal a step answers with (R150, R153). -/
def refusalOf : Reject → Refusal
  | .badLength port length => .badLength port length
  | .unknownBit port bit => .unknownBit port bit

end Sys2Proof.Machine
end

