-- ==== Sys2Proof/Machine/Decoder.lean ====
section
/-! DEFINITION. The decoder: syndrome calculator, error-index lookup table, single-bit corrector, and DEC (42_decoder.md R110 to
R118, R124). Each stage after the syndrome takes the table as an argument (R124); the machine's own is `synTable`. -/

namespace Sys2Proof.Machine

/-- Stage 1, the net `s`: the three XOR functions of the syndrome calculator (R112). -/
def syndrome (c : Code) : Syn :=
  synOf (c.getLsbD 6 ^^ c.getLsbD 5 ^^ c.getLsbD 4 ^^ c.getLsbD 2)
    (c.getLsbD 5 ^^ c.getLsbD 4 ^^ c.getLsbD 3 ^^ c.getLsbD 1)
    (c.getLsbD 6 ^^ c.getLsbD 5 ^^ c.getLsbD 3 ^^ c.getLsbD 0)

/-- Stage 2, the net `hit`: the syndrome is not all zeros (R114). -/
def hit (s : Syn) : Bool := s != 0#3

/-- Stage 2, the net `pos`: the table's output where it is used. It has no value when `hit` is 0 (R114; log entry 4), nor for a
syndrome without an entry (R124). -/
def pos (table : SynTable) (s : Syn) : Option (Fin 7) := if hit s then table s else none

/-- Stage 3, the net `mask`: one-hot at the position to invert, or zero (R115). -/
def mask (table : SynTable) (s : Syn) : Code :=
  match pos table s with
  | some p => oneAt p
  | none => 0#7

/-- Stage 3, the net `corrected`: the working copy with at most one bit inverted (R113, R115, R124). -/
def corrected (table : SynTable) (c : Code) : Code := c ^^^ mask table (syndrome c)

/-- The decoder's function for a given table: data, syndrome and corrected word (R110, R116, R118). -/
def decodeWith (table : SynTable) (c : Code) : Data × Syn × Code :=
  (dataField (corrected table c), syndrome c, corrected table c)

/-- The decoder's function with the hardwired table (R20, R23). -/
def decodeWord (c : Code) : Data × Syn × Code := decodeWith synTable c

/-- DEC: the decoder's input is driven with `c` and its outputs carry what the three stages give (R110). No flag, no exception,
for any word (R123). -/
def execDec (c : Code) (s : State) : Host.Outcome State Fault Refusal :=
  .next (s.setDecoder c (decodeWord c))

end Sys2Proof.Machine
end

