-- ==== Sys2Proof/Machine/Encoder.lean ====
section
/-! DEFINITION. The encoder: the parity XOR tree and ENC (41_encoder.md R90 to R93). -/

namespace Sys2Proof.Machine

/-- The net `p`: the three XOR functions of the parity generator (R91). -/
def parity (d : Data) : Syn :=
  synOf (d.getLsbD 3 ^^ d.getLsbD 2 ^^ d.getLsbD 1)
    (d.getLsbD 2 ^^ d.getLsbD 1 ^^ d.getLsbD 0)
    (d.getLsbD 3 ^^ d.getLsbD 2 ^^ d.getLsbD 0)

/-- The encoder's function: `enc_code_o = {d, p}` (R20, R91). -/
def encodeWord (d : Data) : Code := codeOf d (parity d)

/-- ENC: the encoder's input is driven with `d` and its output carries the codeword (R90). No flag, no exception. -/
def execEnc (d : Data) (s : State) : Host.Outcome State Fault Refusal :=
  .next (s.setEncoder d (encodeWord d))

end Sys2Proof.Machine
end

