-- ==== Sys2Proof/Machine/Flags.lean ====
section
/-! DEFINITION. The block has no flags and no condition codes (10_state.md R30). What the spec gives in their place is what a host
can compute from the observation ports (R27, R30). -/

namespace Sys2Proof.Machine

/-- Whether the decoder inverted a bit, as a host reads it off `dec_syndrome_o` (R30); no value before the decoder is driven. It
does not detect double errors (R122). -/
def correctionApplied (s : State) : Option Bool := s.decSyndromeO.map fun y => y != 0#3

/-- The net `mask` as a host sees it: `dec_code_i xor dec_corrected_o` (R27). -/
def maskSeen (s : State) : Option Code :=
  match s.decCodeI, s.decCorrectedO with
  | some c, some w => some (c ^^^ w)
  | _, _ => none

end Sys2Proof.Machine
end

