-- ==== Sys2Proof/Machine/Dispatch.lean ====
section
/-! DEFINITION. One arm per operation of spec/opcode_table.json (30_encoding.md R66). -/

namespace Sys2Proof.Machine

def exec (i : Instr) (s : State) : Host.Outcome State Fault Refusal :=
  match i with
  | .enc d => Sys2Proof.Machine.execEnc d s
  | .dec c => Sys2Proof.Machine.execDec c s

end Sys2Proof.Machine
end

