-- ==== Sys2Proof/Machine/Boundary.lean ====
section
/-! DEFINITION. What one move of the host does at the boundary (60_exceptions.md R150, R153, R155, R164). -/

namespace Sys2Proof.Machine

/-- One host move: a driven block is admitted and its operation performed, or refused by name; a read of an output changes
nothing (R49), or is refused while its input is not driven (R172). -/
def runMove (m : HostMove) (s : State) : Host.Outcome State Fault Refusal :=
  match m with
  | .drive b =>
    match decode b with
    | .ok i => exec i s
    | .error r => .refused (refusalOf r)
  | .read o =>
    match readOut s o with
    | .ok _ => .next s
    | .error r => .refused r

/-- The host's next move, taken off the list and made; with no move to make nothing changes (R29, R49; log entry 1). -/
def nextMove (s : State) : Host.Outcome State Fault Refusal :=
  match s.pending with
  | [] => .next s
  | m :: rest => runMove m (s.setPending rest)

end Sys2Proof.Machine
end

