-- ==== Sys2Proof/Machine/Step.lean ====
section
/-! DEFINITION. One step of the machine is one move of the host (60_exceptions.md R164). -/

namespace Sys2Proof.Machine

/-- One step: the host's next move. Each sub-block has settled when the step ends (the zero-delay model of R174). -/
def step (s : State) : Host.Outcome State Fault Refusal := nextMove s

/-- The state in which the host's next move drives the port with the word of an operation-table row. Nothing else changes. -/
def State.withFetchWord (s : State) (nbits w : Nat) : State := s.pushMove (.drive (tableBlock nbits w))

end Sys2Proof.Machine
end

