-- ==== Sys2Proof/Machine/Copies.lean ====
section
/-! DEFINITION. Any number of copies of the block in one system (60_exceptions.md R161, 92_eei_decisions.md D17): they share
nothing but the constants. -/

namespace Sys2Proof.Machine

/-- A system: the copies' states. -/
abbrev Copies := List State

/-- One step of one copy; the other copies do not take part (R161). Where the copy's step is refused at its boundary (R150, R153),
the system's step is refused with it: what such a refusal does to the run of the other copies the spec leaves open. DESIGN CHOICE,
log entry 16, safe. -/
def stepCopy (system : Copies) (k : Fin system.length) : Host.Outcome Copies Fault Refusal :=
  match step system[k] with
  | .next t => .next (system.set k.val t)
  | .refused r => .refused r
  | .fault f => .fault f

end Sys2Proof.Machine
end

