-- ==== Sys2Proof/Machine/Division.lean ====
section
/-! DEFINITION. The modulo-2 division primitive as the reference function of 40_division.md R80 to R83, and the pseudocode of ENC
and DEC over sequences that is built on it (41_encoder.md R90, 42_decoder.md R110). The hardware's own equations stand in
Machine/Encoder.lean and Machine/Decoder.lean. -/

namespace Sys2Proof.Machine

/-- Bitwise XOR of two sequences of equal length (R13). -/
def xorSeq (a b : Bits) : Bits := List.zipWith xor a b

/-- One reduction of the window: if its leading bit is 1, XOR the divisor in (R81). -/
def reduceWindow (divisor window : Bits) : Bits :=
  if window.head? = some true then xorSeq window divisor else window

/-- One step of the loop of R81: reduce, then shift the next dividend bit in. -/
def divStep (divisor window : Bits) (next : Bool) : Bits :=
  (reduceWindow divisor window).drop 1 ++ [next]

/-- The computation of R81 on arguments in its domain: the loop, then the final reduction (92_eei_decisions.md D4). -/
def divideWindow (dividend divisor : Bits) : Bits :=
  reduceWindow divisor ((dividend.drop divisor.length).foldl (divStep divisor) (dividend.take divisor.length))

/-- Why a division is outside the primitive's domain (R80; 93_implementation_defined.md I10). -/
inductive DivReject where
  /-- Not 1 ≤ k ≤ n (the `require` of R81). -/
  | badLengths (n k : Nat)
  /-- The divisor's leading bit is 0 (I10; log entry 5). -/
  | leadingZero
  deriving DecidableEq, Repr

/-- `modulo2_divide(dividend, divisor)` (R80, R81), refused outside its domain (I10). -/
def modulo2Divide (dividend divisor : Bits) : Except DivReject Bits :=
  if 1 ≤ divisor.length ∧ divisor.length ≤ dividend.length then
    if divisor.head? = some true then .ok (divideWindow dividend divisor) else .error .leadingZero
  else .error (.badLengths dividend.length divisor.length)

/-- The pseudocode of ENC over sequences (R90). -/
def refEncode (d : Bits) : Except DivReject Bits :=
  match modulo2Divide (d ++ [false, false, false]) gSeq with
  | .ok window => .ok (d ++ lowThree window)
  | .error r => .error r

/-- The outcome of the pseudocode of DEC, as sequences: data, syndrome, corrected word (R110). -/
structure RefDecoded where
  data : Bits
  syndrome : Bits
  corrected : Bits
  deriving DecidableEq, Repr

/-- The working copy of R110: the word itself if the syndrome is all zeros or has no entry (R113, R124), else the word with the
bit the table names inverted. -/
def refCorrect (c syn : Bits) : Bits :=
  if syn = [false, false, false] then c
  else match synTable (ofSeq 3 syn) with
    | some pos => flipSeq c pos.val
    | none => c

/-- The pseudocode of DEC over sequences (R110). -/
def refDecode (c : Bits) : Except DivReject RefDecoded :=
  match modulo2Divide c gSeq with
  | .ok window =>
    .ok { data := slice (refCorrect c (lowThree window)) 0 3, syndrome := lowThree window,
          corrected := refCorrect c (lowThree window) }
  | .error r => .error r

end Sys2Proof.Machine
end

