-- ==== Sys2Proof/Machine/Channel.lean ====
section
/-! DEFINITION. Host context: the channel between encoder and decoder (20_memory.md R56). Its random draws are arguments, so every
outcome is admitted (93_implementation_defined.md I12). -/

namespace Sys2Proof.Machine

/-- What the channel draws for one full group: no error, or the sequence position it inverts (R56). -/
abbrev Draw := Option (Fin 7)

/-- One full group through the channel. -/
def hitGroup (draw : Draw) (group : Bits) : Bits :=
  match draw with
  | some i => flipSeq group i.val
  | none => group

/-- Consecutive groups of n bits, in order; a last group may be shorter (R45, R56). `fuel` bounds the number of groups. -/
def groupsFuel (n : Nat) : Nat → Bits → List Bits
  | 0, _ => []
  | _ + 1, [] => []
  | fuel + 1, b :: bs => (b :: bs).take n :: groupsFuel n fuel ((b :: bs).drop n)

/-- The partition of a sequence into consecutive groups of n bits (R44, R45, R56). -/
def groupsOf (n : Nat) (bits : Bits) : List Bits := groupsFuel n bits.length bits

/-- The groups through the channel, with one draw for each full group; an incomplete group passes unmodified (R56). Where the list
of draws ends, no further group is hit. -/
def hitGroups : List Draw → List Bits → Bits
  | _, [] => []
  | [], g :: gs => g ++ hitGroups [] gs
  | d :: ds, g :: gs => (if g.length = 7 then hitGroup d g else g) ++ hitGroups ds gs

/-- A unit's encoded sequence through the bit-error channel (R56). -/
def channel (draws : List Draw) (bits : Bits) : Bits := hitGroups draws (groupsOf 7 bits)

/-- A unit through the whole channel: dropped before it, or passed through it (R56). -/
def channelUnit (lost : Bool) (draws : List Draw) (bits : Bits) : Option Bits :=
  if lost then none else some (channel draws bits)

end Sys2Proof.Machine
end

