-- ==== Sys2Proof/Machine/Framing.lean ====
section
/-! DEFINITION. Host duties over the machine: bytes and bits, padding, partition, one block after another on one copy of the block,
truncation (20_memory.md R43 to R47, 60_exceptions.md R164). -/

namespace Sys2Proof.Machine

/-- The payload's bytes as bits, each most significant bit first, in byte order (R43). -/
def bitsOfBytes (bytes : List (BitVec 8)) : Bits := bytes.flatMap toSeq

/-- Runs of eight bits as bytes, most significant first; a trailing group shorter than 8 is discarded (R43). -/
def bytesOfBits (bits : Bits) : List (BitVec 8) :=
  ((groupsOf 8 bits).filter fun g => g.length == 8).map (ofSeq 8)

/-- The padding length `(4 - len % 4) % 4` (R44). -/
def padLength (len : Nat) : Nat := (4 - len % 4) % 4

/-- The sequence padded with zero bits to a multiple of 4 (R44). -/
def pad (bits : Bits) : Bits := bits ++ List.replicate (padLength bits.length) false

/-- One call of the host on a settled block: drive an input port with a block as its next move, then read an output port (R164).
It answers what the output carries and the state after. -/
def call (s : State) (port : InPort) (bits : Bits) (out : OutPort) : Except Refusal (Bits × State) :=
  match step (s.pushMove (.drive (blockOf port bits))) with
  | .next t =>
    match readOut t out with
    | .ok seq => .ok (seq, t)
    | .error r => .error r
  | .refused r => .error r
  | .fault f => nomatch f

/-- The calls of a list of blocks in order on one copy of the block, their outputs concatenated (R44, R45). -/
def callAll (port : InPort) (out : OutPort) : State → List Bits → Except Refusal (Bits × State)
  | s, [] => .ok ([], s)
  | s, b :: bs =>
    match call s port b out with
    | .error r => .error r
    | .ok (seq, t) =>
      match callAll port out t bs with
      | .error r => .error r
      | .ok (rest, u) => .ok (seq ++ rest, u)

/-- A unit encoded: padded, partitioned into DataBlocks, each encoded (R44). -/
def sendUnit (s : State) (bits : Bits) : Except Refusal (Bits × State) :=
  callAll .encDataI .encCodeO s (groupsOf 4 (pad bits))

/-- A unit decoded: partitioned into Codewords, each decoded, the result truncated to the original length (R45, R46). -/
def receiveUnit (s : State) (bits : Bits) (originalLength : Nat) : Except Refusal (Bits × State) :=
  match callAll .decCodeI .decDataO s (groupsOf 7 bits) with
  | .error r => .error r
  | .ok (seq, t) => .ok (seq.take originalLength, t)

end Sys2Proof.Machine
end

