-- ==== Sys2Proof/Safety.lean ====
section
/-! DEFINITION. The terms claims use: settled ports, codewords, powers of x modulo g, the polynomial reading of a sequence. -/

namespace Sys2Proof

open Machine

/-- The encoder's output is the function of its own current input, and has no value while that is not driven (R20, R172). -/
def EncoderSettled (s : State) : Prop := s.encCodeO = s.encDataI.map encodeWord

/-- The decoder's outputs are the function of its own current input (R20, R172). -/
def DecoderSettled (s : State) : Prop :=
  s.decDataO = s.decCodeI.map (fun c => (decodeWord c).1) ∧
  s.decSyndromeO = s.decCodeI.map (fun c => (decodeWord c).2.1) ∧
  s.decCorrectedO = s.decCodeI.map (fun c => (decodeWord c).2.2)

/-- Both sub-blocks are settled: each output is a function of the current input of its own sub-block and of nothing else (R20). -/
def Settled (s : State) : Prop := EncoderSettled s ∧ DecoderSettled s

/-- A word that ENC gives for some data block. -/
def IsCodeword (w : Code) : Prop := ∃ d, w = encodeWord d

/-- The table of 40_division.md R84: x^j modulo g for j from 0 to 6, coefficients of x^2, x^1, x^0. -/
def xPowMod : Fin 7 → Syn
  | 0 => 0b001#3
  | 1 => 0b010#3
  | 2 => 0b100#3
  | 3 => 0b011#3
  | 4 => 0b110#3
  | 5 => 0b111#3
  | 6 => 0b101#3

/-- x^(6-i) modulo g, the syndrome of the one-bit word at sequence position i (R84, R119). -/
def errorSyndrome (i : Fin 7) : Syn := xPowMod (Fin.rev i)

/-- A bit sequence read as a polynomial over GF(2), position 0 the highest coefficient (R11). For claims only. -/
noncomputable def polyOf : Bits → Polynomial (ZMod 2)
  | [] => 0
  | b :: bs => (if b then Polynomial.X ^ bs.length else 0) + polyOf bs

/-- Single-bit correction by a decoder with a given table (the property of R119). -/
def CorrectsSingleErrors (table : SynTable) : Prop :=
  ∀ (d : Data) (i : Fin 7), decodeWith table (flipAt (encodeWord d) i) = (d, errorSyndrome i, encodeWord d)

/-- The syndrome DEC of a word shows on `dec_syndrome_o`, from a given state. -/
def shownSyndrome (s : State) (c : Code) : Option Syn :=
  match exec (.dec c) s with
  | .next t => t.decSyndromeO
  | .fault _ => none
  | .refused _ => none

/-- The data block of the last ENC of a list of operations, if it holds one. -/
def lastEnc : List Instr → Option Data
  | [] => none
  | .enc d :: is => some ((lastEnc is).getD d)
  | .dec _ :: is => lastEnc is

/-- The received word of the last DEC of a list of operations, if it holds one. -/
def lastDec : List Instr → Option Code
  | [] => none
  | .enc _ :: is => lastDec is
  | .dec c :: is => some ((lastDec is).getD c)

end Sys2Proof
end

