-- ==== Sys2Proof/Certificates/Slice0/Obligations.lean ====
section
/-! DEFINITION. The statements for the provers. Each docstring names the rule of spec/ it formalises; where the spec marks a rule
`[derived: ...]` as its own inference, or a clause rests on a choice of the model, the docstring says so. -/

open Sys2Proof Sys2Proof.Machine

/-! ## The encoder -/

/-- R90, every clause: each 4-bit input is encoded as its pseudocode over sequences says, nothing but the encoder's two ports
changes (no flag, no exception), a block of another length is refused at the boundary, and the corner cases and the example. The
corner cases are the spec's own inference (`[derived: from this rule and 40_division.md rule R85]`). -/
def Obligations.EncFollowsItsRule : Prop :=
  (∀ (d : Data) (s : State), ∃ c : Code,
    exec (.enc d) s = .next { s with encDataI := some d, encCodeO := some c } ∧ refEncode (toSeq d) = .ok (toSeq c)) ∧
  (∀ (s : State) (bits : List HostBit), bits.length ≠ 4 →
    step (s.pushMove (.drive ⟨.encDataI, bits⟩)) = .refused (.badLength .encDataI bits.length)) ∧
  (∀ e ∈ [(0b0000#4, 0b0000000#7), (0b1111#4, 0b1111111#7), (0b1000#4, 0b1000101#7), (0b0100#4, 0b0100111#7),
      (0b0010#4, 0b0010110#7), (0b0001#4, 0b0001011#7), (0b1011#4, 0b1011000#7)],
    ∀ s : State, exec (.enc e.1) s = .next { s with encDataI := some e.1, encCodeO := some e.2 }) ∧
  (∀ (i : Fin 4) (s : State), ∃ c : Code,
    exec (.enc (1#4 <<< (3 - i.val))) s = .next { s with encDataI := some (1#4 <<< (3 - i.val)), encCodeO := some c } ∧
      parityField c = errorSyndrome ⟨i.val, by omega⟩)

/-- R91 and R93: the bits of `enc_code_o` are the data bits and the three XOR functions, and they are the parity of R90. That the
equations compute the division's remainder is the spec's own inference (`[derived: from 40_division.md rules R84 and R85 ...]`). -/
def Obligations.EncAnswersTheParityEquations : Prop :=
  ∀ (d : Data) (s : State), ∃ (t : State) (c : Code) (w : Bits),
    exec (.enc d) s = .next t ∧ t.encDataI = some d ∧ t.encCodeO = some c ∧
    c.getLsbD 6 = d.getLsbD 3 ∧ c.getLsbD 5 = d.getLsbD 2 ∧ c.getLsbD 4 = d.getLsbD 1 ∧ c.getLsbD 3 = d.getLsbD 0 ∧
    c.getLsbD 2 = (d.getLsbD 3 ^^ d.getLsbD 2 ^^ d.getLsbD 1) ∧
    c.getLsbD 1 = (d.getLsbD 2 ^^ d.getLsbD 1 ^^ d.getLsbD 0) ∧
    c.getLsbD 0 = (d.getLsbD 3 ^^ d.getLsbD 2 ^^ d.getLsbD 0) ∧
    c.extractLsb' 3 4 = d ∧
    modulo2Divide (toSeq d ++ [false, false, false]) gSeq = .ok w ∧ w.drop 1 = toSeq (c.extractLsb' 0 3)

/-- R4 and R41: the codeword as the host reads it is the data block verbatim, then the remainder's coefficients of x^2, x^1, x^0. -/
def Obligations.CodewordSequenceIsDataThenRemainder : Prop :=
  ∀ (d : Data) (s : State), ∃ (t : State) (seq : Bits) (w : Bits),
    exec (.enc d) s = .next t ∧ readOut t .encCodeO = .ok seq ∧ seq.take 4 = toSeq d ∧
    modulo2Divide (toSeq d ++ [false, false, false]) gSeq = .ok w ∧ seq = toSeq d ++ w.drop 1

/-- R94, the spec's own inference (`[derived: from rule R91 ...]`): ENC is linear over GF(2). -/
def Obligations.EncIsLinear : Prop :=
  ∀ (a b : Data) (s : State), ∃ ca cb : Code,
    exec (.enc a) s = .next { s with encDataI := some a, encCodeO := some ca } ∧
    exec (.enc b) s = .next { s with encDataI := some b, encCodeO := some cb } ∧
    exec (.enc (a ^^^ b)) s = .next { s with encDataI := some (a ^^^ b), encCodeO := some (ca ^^^ cb) } ∧
    exec (.enc 0#4) s = .next { s with encDataI := some 0#4, encCodeO := some 0#7 }

/-- R95, the spec's own inference: every codeword is a multiple of g(x), so its division by G leaves `0000`. -/
def Obligations.CodewordsAreMultiplesOfG : Prop :=
  ∀ (d : Data) (s : State), ∃ c : Code,
    exec (.enc d) s = .next { s with encDataI := some d, encCodeO := some c } ∧
    polyOf (toSeq c) = polyOf (toSeq d) * Polynomial.X ^ 3 + (polyOf (toSeq d) * Polynomial.X ^ 3) %ₘ polyOf gSeq ∧
    polyOf (toSeq c) = polyOf (toSeq d) * Polynomial.X ^ 3 - (polyOf (toSeq d) * Polynomial.X ^ 3) %ₘ polyOf gSeq ∧
    polyOf gSeq ∣ polyOf (toSeq c) ∧
    modulo2Divide (toSeq c) gSeq = .ok [false, false, false, false]

/-- R96, the spec's own inference (`[derived: by exhaustive check ...]`): how many codewords have which weight, and that two
distinct codewords differ in at least three positions. -/
def Obligations.CodewordWeightsAndDistances : Prop :=
  (List.range 16).countP (fun n => popcount (encodeWord (BitVec.ofNat 4 n)) = 3) = 7 ∧
  (List.range 16).countP (fun n => popcount (encodeWord (BitVec.ofNat 4 n)) = 4) = 7 ∧
  (∀ w : Code, IsCodeword w →
    (popcount w = 0 ↔ w = 0b0000000#7) ∧ (popcount w = 7 ↔ w = 0b1111111#7) ∧
    (popcount w = 0 ∨ popcount w = 3 ∨ popcount w = 4 ∨ popcount w = 7)) ∧
  IsCodeword 0b0000000#7 ∧ IsCodeword 0b1111111#7 ∧
  ∀ w v : Code, IsCodeword w → IsCodeword v → w ≠ v → 3 ≤ distance w v

/-! ## The decoder -/

/-- R110, every clause: each 7-bit input is decoded as its pseudocode over sequences says, nothing but the decoder's four ports
changes (no flag, no exception), a block of another length is refused at the boundary, and the corner cases and the example. The
corner cases for a codeword, one inverted bit, an inverted parity bit and two or more inverted bits are R121, R119, R127 and R122,
each the spec's own inference (`[derived: ...]`). -/
def Obligations.DecFollowsItsRule : Prop :=
  (∀ (c : Code) (s : State), ∃ (data : Data) (y : Syn) (w : Code),
    exec (.dec c) s =
      .next { s with decCodeI := some c, decDataO := some data, decSyndromeO := some y, decCorrectedO := some w } ∧
    refDecode (toSeq c) = .ok ⟨toSeq data, toSeq y, toSeq w⟩) ∧
  (∀ (s : State) (bits : List HostBit), bits.length ≠ 7 →
    step (s.pushMove (.drive ⟨.decCodeI, bits⟩)) = .refused (.badLength .decCodeI bits.length)) ∧
  (∀ (d : Data) (e : Code) (s : State), ∃ (data : Data) (y : Syn) (w : Code),
    exec (.dec (encodeWord d ^^^ e)) s =
      .next { s with decCodeI := some (encodeWord d ^^^ e), decDataO := some data, decSyndromeO := some y,
                     decCorrectedO := some w } ∧
    (e = 0#7 → y = 0#3 ∧ data = d) ∧ (popcount e = 1 → data = d) ∧
    (popcount e = 1 → e.extractLsb' 3 4 = 0#4 → data = (encodeWord d ^^^ e).extractLsb' 3 4) ∧
    (2 ≤ popcount e → data ≠ d)) ∧
  (∀ s : State,
    exec (.dec 0b0000000#7) s =
      .next { s with decCodeI := some 0b0000000#7, decDataO := some 0b0000#4, decSyndromeO := some 0b000#3,
                     decCorrectedO := some 0b0000000#7 } ∧
    exec (.dec 0b1111111#7) s =
      .next { s with decCodeI := some 0b1111111#7, decDataO := some 0b1111#4, decSyndromeO := some 0b000#3,
                     decCorrectedO := some 0b1111111#7 } ∧
    exec (.dec 0b1001000#7) s =
      .next { s with decCodeI := some 0b1001000#7, decDataO := some 0b1011#4, decSyndromeO := some 0b110#3,
                     decCorrectedO := some 0b1011000#7 } ∧
    pos synTable 0b110#3 = some 2)

/-- R111 and R112: the syndrome is the remainder of the received word, computed by three XOR functions of it alone, and it is the
parity of the received data bits XOR the received parity bits. The equations and the last form are the spec's own inference
(`[derived: from 40_division.md rules R84 and R85 ...]`). -/
def Obligations.SyndromeIsTheRemainder : Prop :=
  ∀ c : Code, ∃ (y : Syn) (w : Bits),
    (∀ s : State, ∃ t : State, exec (.dec c) s = .next t ∧ t.decSyndromeO = some y) ∧
    modulo2Divide (toSeq c) gSeq = .ok w ∧ w.drop 1 = toSeq y ∧
    y.getLsbD 2 = (c.getLsbD 6 ^^ c.getLsbD 5 ^^ c.getLsbD 4 ^^ c.getLsbD 2) ∧
    y.getLsbD 1 = (c.getLsbD 5 ^^ c.getLsbD 4 ^^ c.getLsbD 3 ^^ c.getLsbD 1) ∧
    y.getLsbD 0 = (c.getLsbD 6 ^^ c.getLsbD 5 ^^ c.getLsbD 3 ^^ c.getLsbD 0) ∧
    y = parity (c.extractLsb' 3 4) ^^^ c.extractLsb' 0 3

/-- R113: with an all-zero syndrome no bit is inverted, and the data output is the received word's first four bits. -/
def Obligations.ZeroSyndromeInvertsNothing : Prop :=
  ∀ (c : Code) (s : State), syndrome c = 0b000#3 →
    exec (.dec c) s =
      .next { s with decCodeI := some c, decDataO := some (c.extractLsb' 3 4), decSyndromeO := some 0b000#3,
                     decCorrectedO := some c }

/-- R114: which position each syndrome selects. That `pos` has no value for 000 is the model's choice (log entry 4): R114 only says
that it is not used. -/
def Obligations.LookupTableSelectsThePosition : Prop :=
  (∀ e ∈ [(0b001#3, (6 : Fin 7)), (0b010#3, 5), (0b011#3, 3), (0b100#3, 4), (0b101#3, 0), (0b110#3, 2), (0b111#3, 1)],
    hit e.1 = true ∧ pos synTable e.1 = some e.2) ∧
  hit 0b000#3 = false ∧ pos synTable 0b000#3 = none ∧
  ∀ y : Syn, (hit y = true ↔ y ≠ 0b000#3) ∧ (hit y = true → pos synTable y = synTable y)

/-- R115: the corrector inverts the bit that the table names, or none. That mask bit j is 1 exactly when the syndrome is x^j mod g
is the spec's own inference (`[derived: from rule R114 and 10_state.md rule R23]`). -/
def Obligations.CorrectorInvertsAtMostOneBit : Prop :=
  (∀ (c : Code) (s : State), ∃ (t : State) (w : Code), exec (.dec c) s = .next t ∧ t.decCorrectedO = some w ∧
    (∀ p : Fin 7, pos synTable (syndrome c) = some p → w = c ^^^ (1#7 <<< (6 - p.val))) ∧
    (hit (syndrome c) = false → w = c) ∧ distance c w ≤ 1) ∧
  ∀ (y : Syn) (j : Fin 7), (mask synTable y).getLsbD j.val = true ↔ y = xPowMod j

/-- R116 and R117: the data output is the first four bits of the corrected word, and its closed form. The closed form is the spec's
own inference (`[derived: from rules R115 and R116 ...]`). -/
def Obligations.DataOutputClosedForm : Prop :=
  ∀ (c : Code) (s : State), ∃ (t : State) (data : Data) (w : Code),
    exec (.dec c) s = .next t ∧ t.decDataO = some data ∧ t.decCorrectedO = some w ∧
    data = w.extractLsb' 3 4 ∧
    data.getLsbD 3 = (c.getLsbD 6 ^^ (syndrome c == 0b101#3)) ∧
    data.getLsbD 2 = (c.getLsbD 5 ^^ (syndrome c == 0b111#3)) ∧
    data.getLsbD 1 = (c.getLsbD 4 ^^ (syndrome c == 0b110#3)) ∧
    data.getLsbD 0 = (c.getLsbD 3 ^^ (syndrome c == 0b011#3))

/-- R118, with what R27 and R30 say a host sees on the observation ports: they carry `s` and `corrected`, the mask is the XOR of
input and corrected word, the syndrome is non-zero exactly when a bit was inverted, and reading a port changes no output. -/
def Obligations.ObservationPortsCarryTheNets : Prop :=
  ∀ (c : Code) (s : State), ∃ t : State, exec (.dec c) s = .next t ∧
    t.decSyndromeO = some (syndrome c) ∧ t.decCorrectedO = some (corrected synTable c) ∧
    maskSeen t = some (mask synTable (syndrome c)) ∧
    correctionApplied t = some (hit (syndrome c)) ∧ (hit (syndrome c) = true ↔ corrected synTable c ≠ c) ∧
    ∀ o : OutPort, o.source = .decCodeI → step (t.pushMove (.read o)) = .next t

/-- R67 and R123: every 4-bit block of two-valued bits is encoded and every 7-bit one decoded, as ENC and DEC of the word it spells
and by the encoder's and the decoder's functions; no fault, flag or refusal. -/
def Obligations.EveryInputWordIsProcessed : Prop :=
  (∀ (s : State) (bits : Bits), bits.length = 4 →
    step (s.pushMove (.drive (blockOf .encDataI bits))) = exec (.enc (ofSeq 4 bits)) s ∧
    step (s.pushMove (.drive (blockOf .encDataI bits))) =
      .next { s with encDataI := some (ofSeq 4 bits), encCodeO := some (encodeWord (ofSeq 4 bits)) }) ∧
  (∀ (s : State) (bits : Bits), bits.length = 7 → ∃ (data : Data) (y : Syn) (w : Code),
    (data, y, w) = decodeWord (ofSeq 7 bits) ∧
    step (s.pushMove (.drive (blockOf .decCodeI bits))) = exec (.dec (ofSeq 7 bits)) s ∧
    step (s.pushMove (.drive (blockOf .decCodeI bits))) =
      .next { s with decCodeI := some (ofSeq 7 bits), decDataO := some data, decSyndromeO := some y,
                     decCorrectedO := some w }) ∧
  (∀ d : Data, ∃ bits : Bits, bits.length = 4 ∧ ofSeq 4 bits = d) ∧ ∀ c : Code, ∃ bits : Bits, bits.length = 7 ∧ ofSeq 7 bits = c

/-! ## Guarantees of the pair -/

/-- R119, the spec's own inference beyond the source's first sentence: what ENC shows, with any one position inverted, is decoded to
the data, the codeword and the position's syndrome. -/
def Obligations.SingleBitErrorsAreCorrected : Prop :=
  ∀ (d : Data) (i : Fin 7) (s : State), ∃ (t : State) (c : Code),
    exec (.enc d) s = .next t ∧ t.encCodeO = some c ∧
    exec (.dec (flipAt c i)) t =
      .next { t with decCodeI := some (flipAt c i), decDataO := some d, decSyndromeO := some (errorSyndrome i),
                     decCorrectedO := some c } ∧
    errorSyndrome i ≠ 0b000#3

/-- R121 (the spec's own inference, and the source's sentence) and R175: the encoder's output fed to the decoder has syndrome 000
and returns the data. -/
def Obligations.UncorruptedCodewordsDecodeToTheirData : Prop :=
  ∀ (d : Data) (s : State), ∃ (t : State) (c : Code),
    exec (.enc d) s = .next t ∧ t.encCodeO = some c ∧
    exec (.dec c) t =
      .next { t with decCodeI := some c, decDataO := some d, decSyndromeO := some 0b000#3, decCorrectedO := some c }

/-- R122, the spec's own inference (`[derived: by exhaustive check ...]`): two or more inverted bits always give wrong data; exactly
two never have syndrome 000 and are miscorrected to a codeword at distance 3; the syndrome is 000 exactly when the error pattern is
a codeword, and then the received data bits are returned. -/
def Obligations.MultiBitErrorsGiveWrongData : Prop :=
  ∀ (d : Data) (e : Code) (s : State), 2 ≤ popcount e → ∃ (data : Data) (y : Syn) (w : Code),
    exec (.dec (encodeWord d ^^^ e)) s =
      .next { s with decCodeI := some (encodeWord d ^^^ e), decDataO := some data, decSyndromeO := some y,
                     decCorrectedO := some w } ∧
    data ≠ d ∧
    (popcount e = 2 → y ≠ 0b000#3 ∧ w = encodeWord data ∧ distance (encodeWord d) w = 3 ∧
      ∃ i : Fin 7, w = flipAt (encodeWord d ^^^ e) i ∧ e.getLsbD (6 - i.val) = false) ∧
    (y = 0b000#3 ↔ IsCodeword e) ∧
    (IsCodeword e → data = (encodeWord d ^^^ e).extractLsb' 3 4 ∧ (popcount e = 3 ∨ popcount e = 4 ∨ popcount e = 7))

/-- R125, the spec's own inference: exactly one codeword is within distance 1 of any word; DEC shows it and its data. -/
def Obligations.DecFindsTheNearestCodeword : Prop :=
  ∀ (c : Code) (s : State), ∃ (t : State) (w : Code) (data : Data), exec (.dec c) s = .next t ∧
    t.decCorrectedO = some w ∧ t.decDataO = some data ∧ IsCodeword w ∧ distance c w ≤ 1 ∧ w = encodeWord data ∧
    ∀ k : Code, IsCodeword k → distance c k ≤ 1 → k = w

/-- R126, the spec's own inference: sixteen inputs show each syndrome, and those that show 000 are the codewords. -/
def Obligations.SixteenInputsShowEachSyndrome : Prop :=
  ∀ s : State,
    (∀ y : Syn, (List.range 128).countP (fun n => shownSyndrome s (BitVec.ofNat 7 n) = some y) = 16) ∧
    ∀ c : Code, shownSyndrome s c = some 0b000#3 ↔ IsCodeword c

/-- R127, the spec's own inference: an inverted parity bit does not change the data output. -/
def Obligations.ParityBitErrorsKeepTheData : Prop :=
  ∀ (d : Data) (i : Fin 7) (s : State), 4 ≤ i.val → ∃ (t : State) (w : Code),
    exec (.dec (flipAt (encodeWord d) i)) s = .next t ∧ t.decDataO = some d ∧
    (flipAt (encodeWord d) i).extractLsb' 3 4 = d ∧ t.decCorrectedO = some w ∧ w ≠ flipAt (encodeWord d) i

/-- R120, the spec's own inference: a table corrects every single error if and only if it is SYN_TABLE on the non-zero syndromes. -/
def Obligations.SyndromeTableIsForced : Prop :=
  ∀ table : SynTable,
    (CorrectsSingleErrors table ↔ ∀ i : Fin 7, table (errorSyndrome i) = some i) ∧
    (CorrectsSingleErrors table ↔ ∀ y : Syn, y ≠ 0b000#3 → table y = synTable y)

/-- R124: SYN_TABLE has an entry for every non-zero syndrome, and a decoder whose table has none for the syndrome corrects nothing. -/
def Obligations.UnmappedSyndromesCorrectNothing : Prop :=
  (∀ y : Syn, y ≠ 0b000#3 → ∃ p : Fin 7, synTable y = some p) ∧
  ∀ (table : SynTable) (c : Code), table (syndrome c) = none →
    decodeWith table c = (c.extractLsb' 3 4, syndrome c, c)

/-! ## The division primitive -/

/-- R82 (the spec's own inference from R81) and R11: for a divisor with leading bit 1 the window's first bit is 0 and the others are
the polynomial remainder, for sequences of every length. -/
def Obligations.DivisionIsThePolynomialRemainder : Prop :=
  ∀ dividend divisor : Bits, 1 ≤ divisor.length → divisor.length ≤ dividend.length → divisor.head? = some true →
    ∃ w : Bits, modulo2Divide dividend divisor = .ok (false :: w) ∧ w.length + 1 = divisor.length ∧
      polyOf w = polyOf dividend %ₘ polyOf divisor

/-- R85, the spec's own inference: the remainder by G is linear in the dividend, and that of a 7-bit word is the XOR of the
remainders of its 1 bits. -/
def Obligations.DivisionByGIsLinear : Prop :=
  (∀ a b : Bits, a.length = b.length → 4 ≤ a.length → ∃ wa wb w : Bits,
    modulo2Divide a gSeq = .ok wa ∧ modulo2Divide b gSeq = .ok wb ∧ modulo2Divide (xorSeq a b) gSeq = .ok w ∧
    lowThree w = xorSeq (lowThree wa) (lowThree wb)) ∧
  ∀ c : Code, ∃ w : Bits, modulo2Divide (toSeq c) gSeq = .ok w ∧
    ofSeq 3 (lowThree w) =
      (List.finRange 7).foldl (fun y i => if c.getLsbD (6 - i.val) then y ^^^ errorSyndrome i else y) 0b000#3

/-- R84, the spec's own inference: the table of the powers of x modulo g, each non-zero value once. -/
def Obligations.PowersOfXModuloG : Prop :=
  (∀ j : Fin 7, modulo2Divide (toSeq (1#7 <<< j.val)) gSeq = .ok (false :: toSeq (xPowMod j)) ∧
    polyOf (toSeq (xPowMod j)) = Polynomial.X ^ j.val %ₘ polyOf gSeq) ∧
  polyOf gSeq = Polynomial.X ^ 3 + Polynomial.X + 1 ∧
  ∀ y : Syn, y ≠ 0b000#3 → ∃ j : Fin 7, xPowMod j = y ∧ ∀ k : Fin 7, xPowMod k = y → k = j

/-- R86, the spec's own inference: an all-zero dividend, a dividend as long as the divisor, a multiple of g. -/
def Obligations.DivisionCornerCases : Prop :=
  (∀ (n : Nat) (divisor : Bits), 1 ≤ divisor.length → divisor.length ≤ n → divisor.head? = some true →
    modulo2Divide (List.replicate n false) divisor = .ok (List.replicate divisor.length false)) ∧
  (∀ dividend divisor : Bits, 1 ≤ divisor.length → divisor.length = dividend.length → divisor.head? = some true →
    modulo2Divide dividend divisor = .ok (if dividend.head? = some true then xorSeq dividend divisor else dividend)) ∧
  modulo2Divide [true, false, true, true] [true, false, true, true] = .ok [false, false, false, false] ∧
  ∀ dividend : Bits, 4 ≤ dividend.length → polyOf gSeq ∣ polyOf dividend →
    modulo2Divide dividend gSeq = .ok [false, false, false, false]

/-- R80 and R81's domain, with the refusal that 93_implementation_defined.md I10 gives outside it (log entry 5): the primitive
answers a window as long as the divisor exactly when 1 ≤ k ≤ n and the divisor's leading bit is 1. -/
def Obligations.DivisionAnswersExactlyOnItsDomain : Prop :=
  ∀ dividend divisor : Bits,
    ((∃ w, modulo2Divide dividend divisor = .ok w) ↔
      (1 ≤ divisor.length ∧ divisor.length ≤ dividend.length ∧ divisor.head? = some true)) ∧
    (∀ w, modulo2Divide dividend divisor = .ok w → w.length = divisor.length) ∧
    (dividend.length < divisor.length →
      modulo2Divide dividend divisor = .error (.badLengths dividend.length divisor.length))

/-- R63, R64 and R65: the two dividends, and that parity and syndrome are the last three positions of a window whose first position
is 0. -/
def Obligations.DividendsAndLowOrderBits : Prop :=
  (∀ d : Data, encDividend d = (d.zeroExtend 7) <<< 3 ∧ toSeq (encDividend d) = toSeq d ++ [false, false, false]) ∧
  (∀ c : Code, decDividend c = c) ∧
  (∀ d : Data, ∃ w : Bits, modulo2Divide (toSeq (encDividend d)) gSeq = .ok (false :: w) ∧ toSeq (parity d) = w) ∧
  ∀ c : Code, ∃ w : Bits, modulo2Divide (toSeq (decDividend c)) gSeq = .ok (false :: w) ∧ toSeq (syndrome c) = w

/-- R22 and R23: the generator pattern and the rows of the syndrome table. The rows are the spec's own inference
(`[derived: 42_decoder.md rule R120 ...]`). -/
def Obligations.ConstantsAreAsGiven : Prop :=
  gPattern = 0xB#4 ∧ gSeq = [true, false, true, true] ∧
  synTable 0b000#3 = none ∧
  (∀ e ∈ [(0b001#3, (6 : Fin 7)), (0b010#3, 5), (0b011#3, 3), (0b100#3, 4), (0b101#3, 0), (0b110#3, 2), (0b111#3, 1)],
    synTable e.1 = some e.2 ∧ errorSyndrome e.2 = e.1)

/-! ## The boundary and the step -/

/-- R150: a block of the wrong length is refused by name, whatever its bits; it gives no state, and the refusal stands at every
later point of the run, which is how the model records it (the model's choice, log entry 2). A block of the right length and two-valued bits is admitted. -/
def Obligations.WrongLengthIsRefusedForGood : Prop :=
  ∀ (s : State) (port : InPort) (bits : List HostBit),
    (bits.length ≠ port.width → ∀ k : Nat,
      Host.Core.run core (k + 1) (s.pushMove (.drive ⟨port, bits⟩)) = .refused (.badLength port bits.length)) ∧
    (bits.length = port.width → (∀ b ∈ bits, b = .zero ∨ b = .one) → ∃ i, decode ⟨port, bits⟩ = .ok i)

/-- R153 and R155: a block of the right length with a bit that is not two-valued is refused naming such a bit; length is checked
first. Which of several bits is named is the model's choice (log entry 3), so the statement only says that it is one of them. -/
def Obligations.UnknownBitsAreRefusedAfterLength : Prop :=
  ∀ (s : State) (port : InPort) (bits : List HostBit), (∃ b ∈ bits, b = .unknown ∨ b = .highZ) →
    (bits.length = port.width → ∃ bit : Nat, bit < port.width ∧
      step (s.pushMove (.drive ⟨port, bits⟩)) = .refused (.unknownBit port bit) ∧
      (bits[port.width - 1 - bit]? = some .unknown ∨ bits[port.width - 1 - bit]? = some .highZ)) ∧
    (bits.length ≠ port.width →
      step (s.pushMove (.drive ⟨port, bits⟩)) = .refused (.badLength port bits.length))

/-- R151: no step faults, and a step refuses only as the boundary does: a length that is not the port's, or a bit of the port. The
refusal of a read before its input is driven is R172's. -/
def Obligations.OnlyTheBoundaryRefuses : Prop :=
  ∀ s : State, (∀ f, step s ≠ .fault f) ∧ ∀ r, step s = .refused r →
    (∃ port n, r = .badLength port n ∧ n ≠ port.width) ∨ (∃ port bit, r = .unknownBit port bit ∧ bit < port.width)

/-- A step runs the decoded operation on the state with the move taken off the list; withFetchWord puts a table word there. That the
host's moves are a list of which a step makes one is the model's choice (log entry 1), and so is how decodeTableWord and
withFetchWord lay a table word out as a block (log entry 8). -/
def Obligations.StepRunsTheDecodedOperation : Prop :=
  (∀ (s : State) (b : HostBlock) (rest : List HostMove) (i : Instr), s.pending = .drive b :: rest → decode b = .ok i →
    step s = exec i { s with pending := rest }) ∧
  ∀ (s : State) (nbits w : Nat) (i : Instr), decodeTableWord nbits w = some i → step (s.withFetchWord nbits w) = exec i s

/-- R49 and R172: a step that reads an output with a value changes nothing but the move list; one that reads an output whose input
is not driven is refused (the bit it names is the model's choice, log entry 3); with no move to make nothing changes (the model's
choice, log entry 1). -/
def Obligations.ReadsAndIdleStepsChangeNothing : Prop :=
  (∀ (s : State) (o : OutPort) (rest : List HostMove) (bits : Bits), s.pending = .read o :: rest →
    s.outSeq o = some bits → step s = .next { s with pending := rest }) ∧
  (∀ (s : State) (o : OutPort) (rest : List HostMove), s.pending = .read o :: rest → s.outSeq o = none →
    ∃ bit : Nat, step s = .refused (.unknownBit o.source bit)) ∧
  ∀ s : State, s.pending = [] → step s = .next s

/-- R42: sequence position i of a W-bit block is vector bit W-1-i, on every port. -/
def Obligations.SequencePositionsAreVectorBits : Prop :=
  (∀ (s : State) (bits : Bits), bits.length = 4 → ∃ (t : State) (d : Data),
    step (s.pushMove (.drive (blockOf .encDataI bits))) = .next t ∧ t.encDataI = some d ∧
    ∀ i < 4, bits[i]? = some (d.getLsbD (3 - i))) ∧
  (∀ (s : State) (bits : Bits), bits.length = 7 → ∃ (t : State) (c : Code),
    step (s.pushMove (.drive (blockOf .decCodeI bits))) = .next t ∧ t.decCodeI = some c ∧
    ∀ i < 7, bits[i]? = some (c.getLsbD (6 - i))) ∧
  (∀ (s : State) (c : Code), s.encCodeO = some c → ∃ seq, readOut s .encCodeO = .ok seq ∧ seq.length = 7 ∧
    ∀ i < 7, seq[i]? = some (c.getLsbD (6 - i))) ∧
  (∀ (s : State) (c : Code), s.decCorrectedO = some c → ∃ seq, readOut s .decCorrectedO = .ok seq ∧ seq.length = 7 ∧
    ∀ i < 7, seq[i]? = some (c.getLsbD (6 - i))) ∧
  (∀ (s : State) (d : Data), s.decDataO = some d → ∃ seq, readOut s .decDataO = .ok seq ∧ seq.length = 4 ∧
    ∀ i < 4, seq[i]? = some (d.getLsbD (3 - i))) ∧
  (∀ (s : State) (y : Syn), s.decSyndromeO = some y → ∃ seq, readOut s .decSyndromeO = .ok seq ∧ seq.length = 3 ∧
    ∀ i < 3, seq[i]? = some (y.getLsbD (2 - i)))

/-- R60, R61 and R66: encode and decode agree for every operation and every operand, and each block that is admitted is the one its
operation is presented by; exactly the well-formed blocks are admitted. -/
def Obligations.DecodeAndEncodeAgree : Prop :=
  (∀ i : Instr, decode (encode i) = .ok i) ∧
  (∀ (b : HostBlock) (i : Instr), decode b = .ok i → b = encode i) ∧
  ∀ b : HostBlock, b.wellFormed = true ↔ ∃ i, decode b = .ok i

/-- A few blocks laid out by hand from 30_encoding.md R60 and R61 decode to the operation they stand for (95_test_vectors.md 1.2,
2.8), and a table word of each row does. That a table word's width selects its port is the model's choice (log entry 8). -/
def Obligations.HandLaidBlocksDecode : Prop :=
  decode ⟨.encDataI, [.one, .zero, .one, .one]⟩ = .ok (.enc 0xB#4) ∧
  decode ⟨.decCodeI, [.one, .zero, .zero, .one, .zero, .zero, .zero]⟩ = .ok (.dec 0x48#7) ∧
  decode ⟨.decCodeI, [.zero, .zero, .zero, .zero, .zero, .zero, .one]⟩ = .ok (.dec 0x01#7) ∧
  decodeTableWord 4 0xB = some (.enc 0xB#4) ∧ decodeTableWord 7 0x4A = some (.dec 0x4A#7)

/-! ## Statelessness -/

/-- R20 and R172, for every state and not only along runs: if each output is the function of the current input of its own sub-block,
a step keeps it so. -/
def Obligations.StepKeepsTheOutputsSettled : Prop :=
  ∀ s t : State, Settled s → step s = .next t → Settled t

/-- R172 and R34: after reset no port carries anything, the ports are settled, no output can be read, and a step changes nothing.
The empty move list is the model's own (log entry 1). -/
def Obligations.ResetIsSettledAndUndriven : Prop :=
  Settled State.reset ∧ State.reset.encDataI = none ∧ State.reset.encCodeO = none ∧ State.reset.decCodeI = none ∧
  State.reset.decDataO = none ∧ State.reset.decSyndromeO = none ∧ State.reset.decCorrectedO = none ∧
  (∀ o : OutPort, State.reset.outSeq o = none) ∧ State.reset.pending = [] ∧ step State.reset = .next State.reset

/-- R20, R33 and R49: whatever operations a host performs, from whatever state, every one is performed, and the outputs depend on
the last input of their own sub-block and on nothing before it. That the moves are a list which the run empties is the model's
choice (log entry 1). -/
def Obligations.OutputsDependOnTheLastInputOnly : Prop :=
  ∀ (ops : List Instr) (s : State), ∃ t : State,
    Host.Core.run core ops.length (s.setPending (ops.map fun i => .drive (encode i))) = .next t ∧ t.pending = [] ∧
    (∀ d, lastEnc ops = some d → t.encDataI = some d ∧ t.encCodeO = some (encodeWord d)) ∧
    (lastEnc ops = none → t.encDataI = s.encDataI ∧ t.encCodeO = s.encCodeO) ∧
    (∀ c, lastDec ops = some c → t.decCodeI = some c ∧ t.decDataO = some (decodeWord c).1 ∧
      t.decSyndromeO = some (decodeWord c).2.1 ∧ t.decCorrectedO = some (decodeWord c).2.2) ∧
    (lastDec ops = none → t.decCodeI = s.decCodeI ∧ t.decDataO = s.decDataO ∧ t.decSyndromeO = s.decSyndromeO ∧
      t.decCorrectedO = s.decCorrectedO)

/-- The frames of ENC and DEC (R24 to R26, R49): each leaves the other sub-block's ports and the host's moves alone. -/
def Obligations.EncAndDecFrames : Prop :=
  (∀ (d : Data) (s t : State), exec (.enc d) s = .next t →
    t.decCodeI = s.decCodeI ∧ t.decDataO = s.decDataO ∧ t.decSyndromeO = s.decSyndromeO ∧
    t.decCorrectedO = s.decCorrectedO ∧ t.pending = s.pending) ∧
  ∀ (c : Code) (s t : State), exec (.dec c) s = .next t →
    t.encDataI = s.encDataI ∧ t.encCodeO = s.encCodeO ∧ t.pending = s.pending

/-- R176, for every step of the machine: the encoder's ports change only in a step that drives `enc_data_i`, the decoder's only in
one that drives `dec_code_i`, and the outputs after a drive do not depend on the other sub-block's input. That a step takes one move off the list is the model's
choice (log entry 1). -/
def Obligations.StepTouchesOnlyTheDrivenSubBlock : Prop :=
  (∀ s t : State, step s = .next t →
    ((∀ bits rest, s.pending ≠ .drive ⟨.encDataI, bits⟩ :: rest) →
      t.encDataI = s.encDataI ∧ t.encCodeO = s.encCodeO) ∧
    ((∀ bits rest, s.pending ≠ .drive ⟨.decCodeI, bits⟩ :: rest) →
      t.decCodeI = s.decCodeI ∧ t.decDataO = s.decDataO ∧ t.decSyndromeO = s.decSyndromeO ∧
      t.decCorrectedO = s.decCorrectedO) ∧
    t.pending = s.pending.tail) ∧
  ∀ s t s' t' : State, step s = .next t → step s' = .next t' → s.pending = s'.pending →
    (s.encDataI = s'.encDataI → s.encCodeO = s'.encCodeO → t.encCodeO = t'.encCodeO) ∧
    (s.decCodeI = s'.decCodeI → s.decDataO = s'.decDataO → s.decSyndromeO = s'.decSyndromeO →
      s.decCorrectedO = s'.decCorrectedO →
      t.decDataO = t'.decDataO ∧ t.decSyndromeO = t'.decSyndromeO ∧ t.decCorrectedO = t'.decCorrectedO)

/-- R26 and R49: ENC and DEC in either order give one state, and an operation performed twice gives what it gave once. -/
def Obligations.OperationsCommuteAndAreIdempotent : Prop :=
  (∀ (d : Data) (c : Code) (s : State), ∃ t u v : State,
    exec (.enc d) s = .next t ∧ exec (.dec c) t = .next v ∧ exec (.dec c) s = .next u ∧ exec (.enc d) u = .next v) ∧
  ∀ (i : Instr) (s : State), ∃ t : State, exec i s = .next t ∧ exec i t = .next t

/-- R161: a step of one copy of the block is a step of its own state and leaves every other copy as it was, if it completes. What a
refusal at one copy does to the others is the model's choice (log entry 16), and nothing is stated of it. -/
def Obligations.CopiesNeverInteract : Prop :=
  ∀ (system system' : Copies) (k : Fin system.length), stepCopy system k = .next system' →
    system'.length = system.length ∧ (∃ t, step system[k] = .next t ∧ system'[k.val]? = some t) ∧
    ∀ j, j ≠ k.val → system'[j]? = system[j]?

/-! ## Host duties and the channel -/

/-- R13: `flip` on a port word is `flip` on its sequence; only that position changes. -/
def Obligations.FlipInvertsOneSequencePosition : Prop :=
  ∀ (w : Code) (i : Fin 7), toSeq (flipAt w i) = flipSeq (toSeq w) i.val ∧
    ∀ j : Fin 7, (flipAt w i).getLsbD (6 - j.val) = (w.getLsbD (6 - j.val) ^^ (i == j))

/-- R44: padding is with zero bits to the next multiple of 4, none if already aligned; the unit is encoded block by block in order,
each block independently, whatever the block carried before. -/
def Obligations.UnitsArePaddedAndEncodedInOrder : Prop :=
  ∀ (bits : Bits) (s : State),
    (pad bits).length % 4 = 0 ∧ (∃ n < 4, pad bits = bits ++ List.replicate n false) ∧
    (bits.length % 4 = 0 → pad bits = bits) ∧
    (groupsOf 4 (pad bits)).flatten = pad bits ∧ (∀ g ∈ groupsOf 4 (pad bits), g.length = 4) ∧
    ∃ t : State, sendUnit s bits =
      .ok ((groupsOf 4 (pad bits)).flatMap (fun g => toSeq (encodeWord (ofSeq 4 g))), t)

/-- R45 and R46: a received sequence of whole words is decoded word by word in order and truncated. That a last incomplete group is
presented and so refused by R150 is the model's choice (log entry 9). -/
def Obligations.UnitsAreDecodedInOrderAndTruncated : Prop :=
  ∀ (bits : Bits) (len : Nat) (s : State),
    (bits.length % 7 = 0 → (∀ g ∈ groupsOf 7 bits, g.length = 7) ∧ ∃ t : State, receiveUnit s bits len =
      .ok (((groupsOf 7 bits).flatMap fun g => toSeq (decodeWord (ofSeq 7 g)).1).take len, t)) ∧
    (bits.length % 7 ≠ 0 → receiveUnit s bits len = .error (.badLength .decCodeI (bits.length % 7)))

/-- R43 and R47 (R47 is the spec's own inference): bytes are laid out most significant bit first and come back; a unit of L bytes
needs no padding and is 2L blocks and 14L encoded bits. -/
def Obligations.ByteUnitsNeedNoPadding : Prop :=
  ∀ (bytes : List (BitVec 8)) (s : State),
    bytesOfBits (bitsOfBytes bytes) = bytes ∧ (bitsOfBytes bytes).length = 8 * bytes.length ∧
    pad (bitsOfBytes bytes) = bitsOfBytes bytes ∧ (groupsOf 4 (pad (bitsOfBytes bytes))).length = 2 * bytes.length ∧
    (∃ (coded : Bits) (t : State), sendUnit s (bitsOfBytes bytes) = .ok (coded, t) ∧
      coded.length = 14 * bytes.length ∧ (groupsOf 7 coded).length = 2 * bytes.length) ∧
    ∀ tail : Bits, tail.length < 8 → bytesOfBits (bitsOfBytes bytes ++ tail) = bytes

/-- R56: the channel inverts position i of a full 7-bit group exactly when it draws i for that group, and no other bit; an incomplete
last group passes unmodified, and a lost unit does not reach it. That a group without a draw is not hit is the model's choice (log
entry 10). -/
def Obligations.ChannelInvertsExactlyTheDrawnPositions : Prop :=
  ∀ (draws : List Draw) (bits : Bits),
    (channel draws bits).length = bits.length ∧
    (∀ k < bits.length / 7, ∀ i : Fin 7, (channel draws bits)[7 * k + i.val]? =
      (bits[7 * k + i.val]?).map fun b => b ^^ (draws[k]? == some (some i))) ∧
    (∀ j, 7 * (bits.length / 7) ≤ j → (channel draws bits)[j]? = bits[j]?) ∧
    channelUnit true draws bits = none ∧ channelUnit false draws bits = some (channel draws bits)

/-- R44 to R46, R56 and R119 together: a unit of any bits, sent through a channel that does not lose it and inverts at most one bit
of each codeword, is received as it was, whatever the two sub-blocks carried before and whatever the channel draws. -/
def Obligations.UnitsSurviveTheChannel : Prop :=
  ∀ (bits : Bits) (draws : List Draw) (s s' : State), ∃ (coded received : Bits) (t t' : State),
    sendUnit s bits = .ok (coded, t) ∧ channelUnit false draws coded = some received ∧
    receiveUnit s' received bits.length = .ok (bits, t')
end

