-- ==== Sys2Proof/Config.lean ====
section
/-! DEFINITION. What the spec leaves to an implementation: the one open parameter of 00_scope.md R9. The constants the spec fixes
stand in Machine/Constants.lean. -/

namespace Sys2Proof

/-- `T_PD`, the propagation delay: OPEN, a named parameter that no rule depends on (R9, R174; 92_eei_decisions.md D11). It has no
body, so no proof can see its value; the model is zero-delay and no definition reads it (log entry 7). -/
opaque Config.tPd : Nat

end Sys2Proof
end

