-- ==== Sys2Proof/Laws/BitOrder.lean ====
section
/-! SUPPORT. Port words and bit sequences are two readings of one value (R12). -/

namespace Sys2Proof.Machine

@[simp] theorem toSeq_length {w : Nat} (v : BitVec w) : (toSeq v).length = w := by simp [toSeq]

theorem toSeq_getElem {w : Nat} (v : BitVec w) (i : Nat) (h : i < (toSeq v).length) :
    (toSeq v)[i] = v.getLsbD (w - 1 - i) := by simp [toSeq]

theorem seqValue_append (bits : Bits) (b : Bool) : seqValue (bits ++ [b]) = 2 * seqValue bits + b.toNat := by
  simp [seqValue, List.foldl_append]

/-- Binary digit j of a string's value is its position `length - 1 - j`. -/
theorem seqValue_testBit (bits : Bits) (j : Nat) (h : j < bits.length) :
    (seqValue bits).testBit j = bits[bits.length - 1 - j] := by
  induction bits using List.reverseRecOn generalizing j with
  | nil => simp at h
  | append_singleton bs b ih =>
    rw [seqValue_append]
    cases j with
    | zero => cases b <;> simp
    | succ j =>
      have hj : j < bs.length := by simpa using h
      have key : (2 * seqValue bs + b.toNat).testBit (j + 1) = (seqValue bs).testBit j := by
        rw [Nat.testBit_succ]
        congr 1
        cases b
        · simp
        · simp; omega
      have at_eq : (bs ++ [b]).length - 1 - (j + 1) = bs.length - 1 - j := by simp; omega
      rw [key, ih j hj]
      simp only [at_eq]
      rw [List.getElem_append_left]

theorem toSeq_ofSeq (bits : Bits) : toSeq (ofSeq bits.length bits) = bits := by
  apply List.ext_getElem (by simp)
  intro i h₁ h₂
  rw [toSeq_getElem, ofSeq, BitVec.getLsbD_ofNat, seqValue_testBit _ _ (by omega)]
  have back : bits.length - 1 - (bits.length - 1 - i) = i := by omega
  simp [back]
  omega

theorem toSeq_inj {w : Nat} {a b : BitVec w} (h : toSeq a = toSeq b) : a = b := by
  apply BitVec.eq_of_getLsbD_eq
  intro j hj
  have at_pos := congrArg (fun l => l[w - 1 - j]?) h
  simp only [toSeq, List.getElem?_map] at at_pos
  rw [List.getElem?_range (by omega)] at at_pos
  have back : w - 1 - (w - 1 - j) = j := by omega
  simpa [back] using at_pos

theorem ofSeq_toSeq {w : Nat} (v : BitVec w) : ofSeq w (toSeq v) = v := by
  apply toSeq_inj
  have h := toSeq_ofSeq (toSeq v)
  rwa [toSeq_length] at h

end Sys2Proof.Machine
end

