-- ==== Sys2Proof/Laws/Decode.lean ====
section
/-! SUPPORT. What the boundary can answer: the three outcomes of decode, and the two-valued part of a block. -/

namespace Sys2Proof

@[simp] theorem HostBit.value_ofBool (b : Bool) : (HostBit.ofBool b).value = some b := by cases b <;> rfl

@[simp] theorem HostBit.isKnown_ofBool (b : Bool) : (HostBit.ofBool b).isKnown = true := by cases b <;> rfl

theorem firstUnknown_none_iff (bits : List HostBit) : firstUnknown bits = none ↔ bits.all HostBit.isKnown = true := by
  simp [firstUnknown]

theorem knownBits_ofBool (bits : Bits) : knownBits (bits.map HostBit.ofBool) = bits := by
  induction bits with
  | nil => rfl
  | cons b bs ih => simp [knownBits]

/-- A block all of whose bits are two-valued is the presentation of its values. -/
theorem ofBool_knownBits (bits : List HostBit) (h : bits.all HostBit.isKnown = true) :
    (knownBits bits).map HostBit.ofBool = bits := by
  induction bits with
  | nil => rfl
  | cons b bs ih =>
    simp only [List.all_cons, Bool.and_eq_true] at h
    have tail := ih h.2
    cases b <;> simp_all [knownBits, HostBit.value, HostBit.ofBool, HostBit.isKnown]

/-- Every outcome of the boundary, with the condition under which it answers so. -/
theorem decode_cases (b : HostBlock) :
    (b.bits.length ≠ b.port.width ∧ decode b = .error (.badLength b.port b.bits.length)) ∨
    (b.bits.length = b.port.width ∧
      ∃ i, firstUnknown b.bits = some i ∧ decode b = .error (.unknownBit b.port (b.port.width - 1 - i))) ∨
    (b.bits.length = b.port.width ∧ b.bits.all HostBit.isKnown = true ∧
      decode b = .ok (instrAt b.port (knownBits b.bits))) := by
  by_cases len : b.bits.length = b.port.width
  · cases h : firstUnknown b.bits with
    | some i => exact .inr (.inl ⟨len, i, rfl, by simp [decode, len, h]⟩)
    | none => exact .inr (.inr ⟨len, (firstUnknown_none_iff _).1 h, by simp [decode, len, h]⟩)
  · exact .inl ⟨len, by simp [decode, len]⟩

/-- A block the host lays out from two-valued bits of the port's width is admitted. -/
theorem decode_blockOf (port : InPort) (bits : Bits) (h : bits.length = port.width) :
    decode (blockOf port bits) = .ok (instrAt port bits) := by
  have known : firstUnknown (bits.map HostBit.ofBool) = none := by
    rw [firstUnknown_none_iff]; simp
  simp [decode, blockOf, h, known, knownBits_ofBool]

end Sys2Proof
end

