-- ==== Sys2Proof/Laws/Division.lean ====
section
/-! SUPPORT. The lengths of the windows of the reference division, and its loop one bit at a time. -/

namespace Sys2Proof.Machine

theorem xorSeq_length (a b : Bits) (h : a.length = b.length) : (xorSeq a b).length = a.length := by
  simp [xorSeq, h]

theorem reduceWindow_length (divisor window : Bits) (h : window.length = divisor.length) :
    (reduceWindow divisor window).length = divisor.length := by
  unfold reduceWindow
  split
  · rw [xorSeq_length _ _ h, h]
  · exact h

theorem divStep_length (divisor window : Bits) (b : Bool) (h : window.length = divisor.length) (pos : 1 ≤ divisor.length) :
    (divStep divisor window b).length = divisor.length := by
  simp [divStep, reduceWindow_length _ _ h]
  omega

/-- The loop of R81 keeps the window as long as the divisor. -/
theorem foldl_divStep_length (divisor : Bits) (pos : 1 ≤ divisor.length) (rest window : Bits)
    (h : window.length = divisor.length) : (rest.foldl (divStep divisor) window).length = divisor.length := by
  induction rest generalizing window with
  | nil => exact h
  | cons b bs ih => exact ih _ (divStep_length divisor window b h pos)

theorem divideWindow_length (dividend divisor : Bits) (pos : 1 ≤ divisor.length)
    (le : divisor.length ≤ dividend.length) : (divideWindow dividend divisor).length = divisor.length :=
  reduceWindow_length _ _ (foldl_divStep_length divisor pos _ _ (by simpa using le))

theorem modulo2Divide_ok (dividend divisor : Bits) (pos : 1 ≤ divisor.length)
    (le : divisor.length ≤ dividend.length) (lead : divisor.head? = some true) :
    modulo2Divide dividend divisor = .ok (divideWindow dividend divisor) := by
  simp [modulo2Divide, pos, le, lead]

end Sys2Proof.Machine
end

