-- ==== Sys2Proof/Laws/State.lean ====
section
/-! SUPPORT. What each update of the state leaves in each field. -/

namespace Sys2Proof.Machine

variable (s : State) (d : Data) (code c : Code) (out : Data × Syn × Code) (moves : List HostMove) (m : HostMove)

@[simp] theorem State.setEncoder_pending : (s.setEncoder d code).pending = s.pending := rfl
@[simp] theorem State.setEncoder_encDataI : (s.setEncoder d code).encDataI = some d := rfl
@[simp] theorem State.setEncoder_encCodeO : (s.setEncoder d code).encCodeO = some code := rfl
@[simp] theorem State.setEncoder_decCodeI : (s.setEncoder d code).decCodeI = s.decCodeI := rfl
@[simp] theorem State.setEncoder_decDataO : (s.setEncoder d code).decDataO = s.decDataO := rfl
@[simp] theorem State.setEncoder_decSyndromeO : (s.setEncoder d code).decSyndromeO = s.decSyndromeO := rfl
@[simp] theorem State.setEncoder_decCorrectedO : (s.setEncoder d code).decCorrectedO = s.decCorrectedO := rfl

@[simp] theorem State.setDecoder_pending : (s.setDecoder c out).pending = s.pending := rfl
@[simp] theorem State.setDecoder_encDataI : (s.setDecoder c out).encDataI = s.encDataI := rfl
@[simp] theorem State.setDecoder_encCodeO : (s.setDecoder c out).encCodeO = s.encCodeO := rfl
@[simp] theorem State.setDecoder_decCodeI : (s.setDecoder c out).decCodeI = some c := rfl
@[simp] theorem State.setDecoder_decDataO : (s.setDecoder c out).decDataO = some out.1 := rfl
@[simp] theorem State.setDecoder_decSyndromeO : (s.setDecoder c out).decSyndromeO = some out.2.1 := rfl
@[simp] theorem State.setDecoder_decCorrectedO : (s.setDecoder c out).decCorrectedO = some out.2.2 := rfl

@[simp] theorem State.setPending_pending : (s.setPending moves).pending = moves := rfl
@[simp] theorem State.setPending_encDataI : (s.setPending moves).encDataI = s.encDataI := rfl
@[simp] theorem State.setPending_encCodeO : (s.setPending moves).encCodeO = s.encCodeO := rfl
@[simp] theorem State.setPending_decCodeI : (s.setPending moves).decCodeI = s.decCodeI := rfl
@[simp] theorem State.setPending_decDataO : (s.setPending moves).decDataO = s.decDataO := rfl
@[simp] theorem State.setPending_decSyndromeO : (s.setPending moves).decSyndromeO = s.decSyndromeO := rfl
@[simp] theorem State.setPending_decCorrectedO : (s.setPending moves).decCorrectedO = s.decCorrectedO := rfl

@[simp] theorem State.setPending_self : s.setPending s.pending = s := rfl
@[simp] theorem State.setPending_setPending (more : List HostMove) :
    (s.setPending moves).setPending more = s.setPending more := rfl
@[simp] theorem State.pushMove_pending : (s.pushMove m).pending = m :: s.pending := rfl
@[simp] theorem State.pushMove_setPending : (s.pushMove m).setPending moves = s.setPending moves := rfl

end Sys2Proof.Machine
end

