-- ==== Sys2Proof/Laws/Exec.lean ====
section
/-! SUPPORT. What an operation does to the state, said once. -/

namespace Sys2Proof.Machine

@[simp] theorem exec_enc (d : Data) (s : State) : exec (.enc d) s = .next (s.setEncoder d (encodeWord d)) := rfl

@[simp] theorem exec_dec (c : Code) (s : State) : exec (.dec c) s = .next (s.setDecoder c (decodeWord c)) := rfl

/-- The state an operation leads to. -/
def after : Instr → State → State
  | .enc d, s => s.setEncoder d (encodeWord d)
  | .dec c, s => s.setDecoder c (decodeWord c)

theorem exec_eq_after (i : Instr) (s : State) : exec i s = .next (after i s) := by cases i <;> rfl

@[simp] theorem after_pending (i : Instr) (s : State) : (after i s).pending = s.pending := by cases i <;> rfl

end Sys2Proof.Machine
end

