-- ==== Sys2Proof/Laws/Ops.lean ====
section
/-! SUPPORT. What reading an output port can answer. -/

namespace Sys2Proof.Machine

theorem readOut_ok_iff (s : State) (o : OutPort) (bits : Bits) : readOut s o = .ok bits ↔ s.outSeq o = some bits := by
  unfold readOut
  cases s.outSeq o <;> simp

theorem readOut_error_iff (s : State) (o : OutPort) (r : Refusal) :
    readOut s o = .error r ↔ s.outSeq o = none ∧ r = .unknownBit o.source (o.source.width - 1) := by
  unfold readOut
  cases s.outSeq o <;> simp [eq_comm]

end Sys2Proof.Machine
end

