-- ==== Sys2Proof/Laws/Step.lean ====
section
/-! SUPPORT. Everything one step can do. -/

namespace Sys2Proof.Machine

theorem step_idle (s : State) (h : s.pending = []) : step s = .next s := by simp [step, nextMove, h]

theorem step_move (s : State) (m : HostMove) (rest : List HostMove) (h : s.pending = m :: rest) :
    step s = runMove m (s.setPending rest) := by simp [step, nextMove, h]

@[simp] theorem step_pushMove (s : State) (m : HostMove) : step (s.pushMove m) = runMove m s := rfl

theorem runMove_drive_ok (b : HostBlock) (i : Instr) (s : State) (h : decode b = .ok i) :
    runMove (.drive b) s = .next (after i s) := by simp [runMove, h, exec_eq_after]

theorem runMove_drive_error (b : HostBlock) (r : Reject) (s : State) (h : decode b = .error r) :
    runMove (.drive b) s = .refused (refusalOf r) := by simp [runMove, h]

/-- A step that answers a next state: nothing was to be done, an admitted block was driven, or an output with a value was read. -/
theorem step_next_cases {s t : State} (h : step s = .next t) :
    (s.pending = [] ∧ t = s) ∨
    (∃ b i rest, s.pending = .drive b :: rest ∧ decode b = .ok i ∧ t = after i (s.setPending rest)) ∨
    (∃ o bits rest, s.pending = .read o :: rest ∧ s.outSeq o = some bits ∧ t = s.setPending rest) := by
  cases hp : s.pending with
  | nil =>
    rw [step_idle s hp] at h
    cases h
    exact .inl ⟨rfl, rfl⟩
  | cons m rest =>
    rw [step_move s m rest hp] at h
    cases m with
    | drive b =>
      cases hd : decode b with
      | error r => rw [runMove_drive_error _ _ _ hd] at h; cases h
      | ok i =>
        rw [runMove_drive_ok _ _ _ hd] at h
        cases h
        exact .inr (.inl ⟨b, i, rest, rfl, hd, rfl⟩)
    | read o =>
      cases hr : readOut (s.setPending rest) o with
      | error r => simp [runMove, hr] at h
      | ok bits =>
        simp only [runMove, hr] at h
        cases h
        exact .inr (.inr ⟨o, bits, rest, rfl, by cases o <;> exact (readOut_ok_iff _ _ _).1 hr, rfl⟩)

end Sys2Proof.Machine
end

