-- ==== Sys2Proof/Laws/Framing.lean ====
section
/-! SUPPORT. The partition of a sequence into groups, and one call of the host. -/

namespace Sys2Proof.Machine

theorem groupsFuel_flatten (n : Nat) (pos : 1 ≤ n) (fuel : Nat) (bits : Bits) (h : bits.length ≤ fuel) :
    (groupsFuel n fuel bits).flatten = bits := by
  induction fuel generalizing bits with
  | zero => cases bits <;> simp_all [groupsFuel]
  | succ fuel ih =>
    cases bits with
    | nil => rfl
    | cons b bs =>
      simp only [groupsFuel, List.flatten_cons]
      rw [ih _ (by simp at h ⊢; omega), List.take_append_drop]

/-- The groups in order are the sequence. -/
theorem groupsOf_flatten (n : Nat) (pos : 1 ≤ n) (bits : Bits) : (groupsOf n bits).flatten = bits :=
  groupsFuel_flatten n pos _ bits (Nat.le_refl _)

/-- More fuel than the sequence is long changes no group. -/
theorem groupsFuel_enough (n : Nat) (pos : 1 ≤ n) (fuel : Nat) (bits : Bits) (h : bits.length ≤ fuel) :
    groupsFuel n fuel bits = groupsOf n bits := by
  unfold groupsOf
  suffices H : ∀ f g (bits : Bits), bits.length ≤ f → bits.length ≤ g → groupsFuel n f bits = groupsFuel n g bits from
    H _ _ _ h (Nat.le_refl _)
  intro f
  induction f with
  | zero =>
    intro g bits hf _
    have : bits = [] := by cases bits <;> simp_all
    subst this
    cases g <;> rfl
  | succ f ih =>
    intro g bits hf hg
    cases bits with
    | nil => cases g <;> rfl
    | cons b bs =>
      cases g with
      | zero => simp at hg
      | succ g =>
        simp only [groupsFuel]
        rw [ih g]
        · simp at hf ⊢; omega
        · simp at hg ⊢; omega

/-- A full first group, then the groups of the rest. -/
theorem groupsOf_append (n : Nat) (pos : 1 ≤ n) (first rest : Bits) (h : first.length = n) :
    groupsOf n (first ++ rest) = first :: groupsOf n rest := by
  cases first with
  | nil => simp at h; omega
  | cons b bs =>
    have takes : (b :: (bs ++ rest)).take n = b :: bs := by
      rw [← List.cons_append, List.take_append_of_le_length (by omega), List.take_of_length_le (by omega)]
    have drops : (b :: (bs ++ rest)).drop n = rest := by
      rw [← List.cons_append, List.drop_append_of_le_length (by omega), List.drop_of_length_le (by omega), List.nil_append]
    rw [groupsOf, List.cons_append, List.length_cons, groupsFuel, takes, drops,
      groupsFuel_enough n pos _ rest (by simp)]

/-- Driving the encoder with a 4-bit sequence and reading its output. -/
theorem call_enc (s : State) (bits : Bits) (h : bits.length = 4) :
    call s .encDataI bits .encCodeO =
      .ok (toSeq (encodeWord (ofSeq 4 bits)), s.setEncoder (ofSeq 4 bits) (encodeWord (ofSeq 4 bits))) := by
  simp [call, runMove_drive_ok _ _ _ (decode_blockOf .encDataI bits h), instrAt, after, readOut, State.outSeq]

/-- Driving the decoder with a 7-bit sequence and reading its data output. -/
theorem call_dec (s : State) (bits : Bits) (h : bits.length = 7) :
    call s .decCodeI bits .decDataO =
      .ok (toSeq (decodeWord (ofSeq 7 bits)).1, s.setDecoder (ofSeq 7 bits) (decodeWord (ofSeq 7 bits))) := by
  simp [call, runMove_drive_ok _ _ _ (decode_blockOf .decCodeI bits h), instrAt, after, readOut, State.outSeq]

end Sys2Proof.Machine
end

