-- ==== Sys2Proof/Laws/PerInstr.lean ====
section
/-! SUPPORT. Families of statements about every operation as a term of Instr. -/

namespace Sys2Proof.Laws

/-- The block that presents an operation goes to the port of its operand, is as wide as that port, and is two-valued. -/
def Presented.Statement (i : Instr) : Prop := (encode i).wellFormed = true ∧ i.wellFormed = true

theorem Presented.enc (d : Data) : Presented.Statement (.enc d) := by
  simp [Presented.Statement, encode, blockOf, HostBlock.wellFormed, HostBlock.lengthOk, HostBlock.allKnown, InPort.width,
    Instr.wellFormed]

theorem Presented.dec (c : Code) : Presented.Statement (.dec c) := by
  simp [Presented.Statement, encode, blockOf, HostBlock.wellFormed, HostBlock.lengthOk, HostBlock.allKnown, InPort.width,
    Instr.wellFormed]

end Sys2Proof.Laws
end

