-- ==== Sys2Proof/Tests/Slice0.lean ====
section
/-! SUPPORT. Tests with expected results from the tables of 95_test_vectors.md, the ill-formed blocks, and a witness for each
statement that has hypotheses. -/

namespace Sys2Proof.Tests

open Sys2Proof Sys2Proof.Machine

/-! ## Well-formedness and decoding -/

/-- A 3-bit block is not as wide as the encoder's port (95, section 2.8, row 1). -/
theorem test_wellFormed_refuses_length :
    HostBlock.wellFormed ⟨.encDataI, [.one, .zero, .one]⟩ = false ∧
    decode ⟨.encDataI, [.one, .zero, .one]⟩ = .error (.badLength .encDataI 3) := by decide

/-- `10X1`: vector bit 1 is unknown (95, section 2.8, row 7). -/
theorem test_wellFormed_refuses_unknown :
    HostBlock.wellFormed ⟨.encDataI, [.one, .zero, .unknown, .one]⟩ = false ∧
    decode ⟨.encDataI, [.one, .zero, .unknown, .one]⟩ = .error (.unknownBit .encDataI 1) := by decide

/-- `10X`: length is checked first (95, section 2.8, row 8). -/
theorem test_length_before_unknown :
    decode ⟨.encDataI, [.one, .zero, .unknown]⟩ = .error (.badLength .encDataI 3) := by decide

/-- A high-impedance bit is refused as an unknown one is (R153). -/
theorem test_wellFormed_refuses_highZ :
    HostBlock.wellFormed ⟨.decCodeI, [.one, .zero, .one, .one, .zero, .zero, .highZ]⟩ = false ∧
    decode ⟨.decCodeI, [.one, .zero, .one, .one, .zero, .zero, .highZ]⟩ = .error (.unknownBit .decCodeI 0) := by decide

/-- Six and eight bits at the decoder (95, section 2.8, rows 4 and 5). -/
theorem test_decoder_lengths :
    decode ⟨.decCodeI, [.one, .zero, .one, .one, .zero, .zero]⟩ = .error (.badLength .decCodeI 6) ∧
    decode ⟨.decCodeI, [.one, .zero, .one, .one, .zero, .zero, .zero, .zero]⟩ = .error (.badLength .decCodeI 8) := by decide

/-- Format DATA by hand: `0001` has its only 1 at position 3, vector bit 0 (R60). -/
theorem test_decode_enc : decode ⟨.encDataI, [.zero, .zero, .zero, .one]⟩ = .ok (.enc 1#4) := by decide

/-- Format CODE by hand: `1000000` has its only 1 at position 0, vector bit 6 (R61). -/
theorem test_decode_dec :
    decode ⟨.decCodeI, [.one, .zero, .zero, .zero, .zero, .zero, .zero]⟩ = .ok (.dec 64#7) := by decide

/-- Table words whose width is given in whole bytes (log entry 8). -/
theorem test_table_word_bytes :
    decodeTableWord 8 0xB = some (.enc 0xB#4) ∧ decodeTableWord 8 0x48 = some (.dec 0x48#7) ∧
    decodeTableWord 8 0xB0 = none ∧ decodeTableWord 3 0x5 = none := by decide

/-! ## The operations -/

/-- What a step shows on the encoder's output. -/
def shownCode (s : State) : Option Code :=
  match step s with
  | .next t => t.encCodeO
  | _ => none

/-- What a step shows on the decoder's three outputs. -/
def shownDecoded (s : State) : Option Data × Option Syn × Option Code :=
  match step s with
  | .next t => (t.decDataO, t.decSyndromeO, t.decCorrectedO)
  | _ => (none, none, none)

/-- `ENC 1011` gives `1011000` (95, section 1.2). -/
theorem test_enc_1011 : shownCode (State.reset.withFetchWord 4 0xB) = some 0x58#7 := by decide

/-- The rows of the codebook that each test one data bit, and two mixed rows (95, section 2.1). -/
theorem test_enc_codebook :
    [0x1#4, 0x2#4, 0x4#4, 0x8#4, 0x6#4, 0xD#4].map encodeWord = [0x0B#7, 0x16#7, 0x27#7, 0x45#7, 0x31#7, 0x69#7] := by decide

/-- `DEC 1001000` gives syndrome `110`, corrected `1011000`, data `1011` (95, section 1.2). -/
theorem test_dec_single_error :
    shownDecoded (State.reset.withFetchWord 7 0x48) = (some 0xB#4, some 0b110#3, some 0x58#7) := by decide

/-- The double error `1001010` is miscorrected to `1001110` (95, section 1.2, last row). -/
theorem test_dec_double_error :
    shownDecoded (State.reset.withFetchWord 7 0x4A) = (some 0x9#4, some 0b100#3, some 0x4E#7) := by decide

/-- The traces of 40_division.md R87. -/
theorem test_division_traces :
    modulo2Divide [true, false, true, true, false, false, false] gSeq = .ok [false, false, false, false] ∧
    modulo2Divide [false, false, false, true, false, false, false] gSeq = .ok [false, false, true, true] ∧
    modulo2Divide [true, false, false, true, false, false, false] gSeq = .ok [false, true, true, false] ∧
    modulo2Divide [true, true, true, true, true, true, true] gSeq = .ok [false, false, false, false] := by decide

/-- Outside the primitive's domain (93, I10). -/
theorem test_division_domain :
    modulo2Divide [true, false, true] gSeq = .error (.badLengths 3 4) ∧
    modulo2Divide [true, false] [false, true] = .error .leadingZero := by decide

/-- The values of the padding formula for each remainder (95, section 1.4). -/
theorem test_padding : [0, 1, 2, 3].map padLength = [0, 3, 2, 1] := by decide

/-- Program P2 of 95, section 3.2: the unit "Hi", encoded. -/
theorem test_unit_hi :
    (match sendUnit State.reset (bitsOfBytes [0x48#8, 0x69#8]) with
      | .ok (coded, _) => coded
      | .error _ => []) = toSeq 0b0100111100010101100011001110#28 := by decide

/-- Program P4 of 95, section 3.4: `0100111` hit at position 0, then `1000101` at position 3. -/
theorem test_channel_P4 :
    channel [some 0, some 3] (toSeq 0b01001111000101#14) = toSeq 0b11001111001101#14 := by decide

/-! ## Witnesses: states and operands that meet the hypotheses of each statement -/

theorem witness_EncFollowsItsRule : ([HostBit.one] : List HostBit).length ≠ 4 := by decide

theorem witness_CodewordWeightsAndDistances :
    IsCodeword 0b0001011#7 ∧ IsCodeword 0b0010110#7 ∧ (0b0001011#7 : Code) ≠ 0b0010110#7 :=
  ⟨⟨0b0001#4, by decide⟩, ⟨0b0010#4, by decide⟩, by decide⟩

theorem witness_DecFollowsItsRule :
    ([HostBit.one] : List HostBit).length ≠ 7 ∧ (∃ e : Code, e = 0#7) ∧ popcount 0b0000100#7 = 1 ∧
    (0b0000100#7).extractLsb' 3 4 = 0#4 ∧ popcount 0b1000000#7 = 1 ∧ 2 ≤ popcount 0b0010010#7 :=
  ⟨by decide, ⟨0#7, rfl⟩, by decide, by decide, by decide, by decide⟩

theorem witness_ZeroSyndromeInvertsNothing : syndrome 0x58#7 = 0b000#3 := by decide

theorem witness_LookupTableSelectsThePosition : hit 0b111#3 = true := by decide

theorem witness_CorrectorInvertsAtMostOneBit :
    pos synTable (syndrome 0x48#7) = some 2 ∧ hit (syndrome 0x58#7) = false := by decide

theorem witness_ObservationPortsCarryTheNets : OutPort.source .decSyndromeO = .decCodeI := by decide

theorem witness_EveryInputWordIsProcessed :
    ([true, false, true, true] : Bits).length = 4 ∧ ([true, false, false, true, false, false, false] : Bits).length = 7 := by decide

theorem witness_MultiBitErrorsGiveWrongData :
    popcount 0b0010010#7 = 2 ∧ 2 ≤ popcount 0b0001011#7 ∧ IsCodeword 0b0001011#7 :=
  ⟨by decide, by decide, 0b0001#4, by decide⟩

theorem witness_DecFindsTheNearestCodeword : IsCodeword 0x58#7 ∧ distance 0x48#7 0x58#7 ≤ 1 := ⟨⟨0xB#4, by decide⟩, by decide⟩

theorem witness_ParityBitErrorsKeepTheData : 4 ≤ (4 : Fin 7).val ∧ 4 ≤ (6 : Fin 7).val := by decide

theorem witness_SyndromeTableIsForced : (0b101#3 : Syn) ≠ 0b000#3 := by decide

theorem witness_UnmappedSyndromesCorrectNothing :
    (0b111#3 : Syn) ≠ 0b000#3 ∧ (fun _ => none : SynTable) (syndrome 0x48#7) = none := by decide

theorem witness_DivisionIsThePolynomialRemainder :
    1 ≤ gSeq.length ∧ gSeq.length ≤ (toSeq 0x48#7).length ∧ gSeq.head? = some true := by decide

theorem witness_DivisionByGIsLinear : (toSeq 0x48#7).length = (toSeq 0x0B#7).length ∧ 4 ≤ (toSeq 0x48#7).length := by decide

theorem witness_PowersOfXModuloG : (0b011#3 : Syn) ≠ 0b000#3 := by decide

theorem witness_DivisionCornerCases :
    1 ≤ gSeq.length ∧ gSeq.length ≤ 7 ∧ gSeq.head? = some true ∧ gSeq.length = (toSeq 0xB#4).length ∧
    4 ≤ gSeq.length ∧ polyOf gSeq ∣ polyOf gSeq :=
  ⟨by decide, by decide, by decide, by decide, by decide, dvd_refl _⟩

theorem witness_DivisionAnswersExactlyOnItsDomain :
    modulo2Divide gSeq gSeq = .ok [false, false, false, false] ∧ (toSeq 0b101#3).length < gSeq.length := by decide

theorem witness_WrongLengthIsRefusedForGood :
    ([HostBit.one, .zero, .one] : List HostBit).length ≠ InPort.width .encDataI ∧
    ([HostBit.one, .zero, .one, .one] : List HostBit).length = InPort.width .encDataI ∧
    ∀ b ∈ ([HostBit.one, .zero, .one, .one] : List HostBit), b = .zero ∨ b = .one := by decide

theorem witness_UnknownBitsAreRefusedAfterLength :
    (∃ b ∈ [HostBit.one, .zero, .unknown, .one], b = .unknown ∨ b = .highZ) ∧
    [HostBit.one, .zero, .unknown, .one].length = InPort.width .encDataI ∧
    (∃ b ∈ [HostBit.one, .zero, .unknown], b = .unknown ∨ b = .highZ) ∧
    [HostBit.one, .zero, .unknown].length ≠ InPort.width .encDataI := by decide

theorem witness_OnlyTheBoundaryRefuses :
    step (State.reset.pushMove (.drive ⟨.encDataI, [.one]⟩)) = .refused (.badLength .encDataI 1) ∧
    step (State.reset.pushMove (.read .decDataO)) = .refused (.unknownBit .decCodeI 6) := ⟨rfl, rfl⟩

theorem witness_StepRunsTheDecodedOperation :
    (State.reset.pushMove (.drive (encode (.enc 0xB#4)))).pending = .drive (encode (.enc 0xB#4)) :: [] ∧
    decode (encode (.enc 0xB#4)) = .ok (.enc 0xB#4) ∧ decodeTableWord 7 0x48 = some (.dec 0x48#7) := by decide

theorem witness_ReadsAndIdleStepsChangeNothing :
    ((State.reset.setEncoder 0xB#4 0x58#7).pushMove (.read .encCodeO)).pending = .read .encCodeO :: [] ∧
    ((State.reset.setEncoder 0xB#4 0x58#7).pushMove (.read .encCodeO)).outSeq .encCodeO = some (toSeq 0x58#7) ∧
    (State.reset.pushMove (.read .encCodeO)).pending = .read .encCodeO :: [] ∧
    (State.reset.pushMove (.read .encCodeO)).outSeq .encCodeO = none ∧ State.reset.pending = [] := by decide

theorem witness_SequencePositionsAreVectorBits :
    ([true, false, true, true] : Bits).length = 4 ∧ ([true, false, false, true, false, false, false] : Bits).length = 7 ∧
    (State.reset.setEncoder 0xB#4 0x58#7).encCodeO = some 0x58#7 ∧
    (State.reset.setDecoder 0x48#7 (decodeWord 0x48#7)).decCorrectedO = some 0x58#7 ∧
    (State.reset.setDecoder 0x48#7 (decodeWord 0x48#7)).decDataO = some 0xB#4 ∧
    (State.reset.setDecoder 0x48#7 (decodeWord 0x48#7)).decSyndromeO = some 0b110#3 := by decide

theorem witness_DecodeAndEncodeAgree :
    decode ⟨.decCodeI, [.one, .zero, .zero, .one, .zero, .zero, .zero]⟩ = .ok (.dec 0x48#7) := by decide

theorem witness_StepKeepsTheOutputsSettled :
    Settled State.reset ∧
    step (State.reset.pushMove (.drive (encode (.dec 0x48#7)))) = .next (State.reset.setDecoder 0x48#7 (decodeWord 0x48#7)) ∧
    Settled (State.reset.pushMove (.drive (encode (.dec 0x48#7)))) :=
  ⟨⟨rfl, rfl, rfl, rfl⟩, rfl, ⟨rfl, rfl, rfl, rfl⟩⟩

theorem witness_OutputsDependOnTheLastInputOnly :
    lastEnc [.enc 1#4, .dec 0x48#7, .enc 0xB#4] = some 0xB#4 ∧ lastDec [.enc 1#4, .dec 0x48#7, .enc 0xB#4] = some 0x48#7 ∧
    lastEnc [.dec 0x48#7] = none ∧ lastDec [.enc 0xB#4] = none := by decide

theorem witness_EncAndDecFrames :
    exec (.enc 0xB#4) State.reset = .next (State.reset.setEncoder 0xB#4 0x58#7) ∧
    exec (.dec 0x48#7) State.reset = .next (State.reset.setDecoder 0x48#7 (0xB#4, 0b110#3, 0x58#7)) := ⟨rfl, rfl⟩

/-- The state whose next move drives the decoder, on a machine with nothing driven, and on one whose encoder is driven. -/
def decoderNext (s : State) : State := s.pushMove (.drive (encode (.dec 0x48#7)))

theorem witness_StepTouchesOnlyTheDrivenSubBlock :
    step (decoderNext State.reset) = .next (State.reset.setDecoder 0x48#7 (decodeWord 0x48#7)) ∧
    step (decoderNext (State.reset.setEncoder 0xB#4 0x58#7)) =
      .next ((State.reset.setEncoder 0xB#4 0x58#7).setDecoder 0x48#7 (decodeWord 0x48#7)) ∧
    (decoderNext State.reset).pending = (decoderNext (State.reset.setEncoder 0xB#4 0x58#7)).pending ∧
    (∀ bits rest, (decoderNext State.reset).pending ≠ .drive ⟨.encDataI, bits⟩ :: rest) ∧
    (∀ bits rest, (State.reset.withFetchWord 4 0xB).pending ≠ .drive ⟨.decCodeI, bits⟩ :: rest) ∧
    (decoderNext State.reset).decCodeI = (decoderNext (State.reset.setEncoder 0xB#4 0x58#7)).decCodeI ∧
    (decoderNext State.reset).encDataI = (decoderNext State.reset).encDataI := by
  refine ⟨rfl, rfl, rfl, ?_, ?_, rfl, rfl⟩
  · intro bits rest h
    cases h
  · intro bits rest h
    cases h

theorem witness_CopiesNeverInteract :
    stepCopy [State.reset, State.reset.withFetchWord 4 0xB] 1 =
      .next [State.reset, State.reset.setEncoder 0xB#4 0x58#7] := rfl

theorem witness_UnitsArePaddedAndEncodedInOrder : ([true, false, true, true] : Bits).length % 4 = 0 := by decide

theorem witness_UnitsAreDecodedInOrderAndTruncated :
    (toSeq 0x48#7).length % 7 = 0 ∧ (toSeq 0b101#3).length % 7 ≠ 0 := by decide

theorem witness_ChannelInvertsExactlyTheDrawnPositions :
    0 < (toSeq 0b10110001#8).length / 7 ∧ 7 * ((toSeq 0b10110001#8).length / 7) ≤ 7 ∧ 7 < (toSeq 0b10110001#8).length := by decide

theorem witness_ByteUnitsNeedNoPadding : ([true, false, true] : Bits).length < 8 := by decide

end Sys2Proof.Tests
end

section
/-! PROOF. What the host reads on `enc_code_o` after ENC: the data block, then the last three positions of the division's window
(00_scope.md R4, 20_memory.md R41). -/

namespace Sys2Proof.Machine

/-- Concatenated port words, read in sequence order, are the two sequences one after the other (R12). -/
theorem toSeq_append {m n : Nat} (a : BitVec m) (b : BitVec n) : toSeq (a ++ b) = toSeq a ++ toSeq b := by
  refine List.ext_getElem (by simp) fun i h _ => ?_
  have hi : i < m + n := by simpa using h
  rw [toSeq_getElem, BitVec.getLsbD_append]
  by_cases him : i < m
  · have high : ¬ m + n - 1 - i < n := by omega
    have index : m + n - 1 - i - n = m - 1 - i := by omega
    rw [if_neg high, List.getElem_append_left (by simpa using him), toSeq_getElem, index]
  · have low : m + n - 1 - i < n := by omega
    have index : m + n - 1 - i = n - 1 - (i - m) := by omega
    rw [if_pos low, List.getElem_append_right (by simpa using him), toSeq_getElem, toSeq_length, index]

/-- The codeword as a sequence is the data block, then the parity net. -/
theorem toSeq_encodeWord (d : Data) : toSeq (encodeWord d) = toSeq d ++ toSeq (parity d) :=
  toSeq_append d (parity d)

/-- For each of the sixteen data blocks the division of the encoder's dividend leaves the parity net below a leading 0 (R65, R91). -/
theorem divideWindow_encDividend (d : Data) :
    divideWindow (toSeq d ++ [false, false, false]) gSeq = false :: toSeq (parity d) := by
  revert d
  decide

/-- The encoder's dividend is in the domain of the division, whose window is the parity net below a leading 0 (R63, R80). -/
theorem modulo2Divide_encDividend (d : Data) :
    modulo2Divide (toSeq d ++ [false, false, false]) gSeq = .ok (false :: toSeq (parity d)) := by
  rw [modulo2Divide_ok _ _ (by decide) (by simp [gSeq]) (by decide), divideWindow_encDividend]

/-- A driven encoder's output reads as the sequence of the word it carries (R42). -/
theorem readOut_setEncoder (s : State) (d : Data) (code : Code) :
    readOut (s.setEncoder d code) .encCodeO = .ok (toSeq code) :=
  (readOut_ok_iff _ _ _).mpr rfl

/-- Settles O3: the codeword is the data block and the parity net, and the parity net is the division's window without its
leading 0. -/
theorem codewordSequenceIsDataThenRemainder : Obligations.CodewordSequenceIsDataThenRemainder := by
  intro d s
  refine ⟨s.setEncoder d (encodeWord d), toSeq (encodeWord d), false :: toSeq (parity d), exec_enc d s,
    readOut_setEncoder s d _, ?_, modulo2Divide_encDividend d, toSeq_encodeWord d⟩
  rw [toSeq_encodeWord]
  exact List.take_left' (toSeq_length d)

end Sys2Proof.Machine
end

section
/-! PROOF. Which vector bit each sequence position of a block is, on the driven and on the read ports (20_memory.md R42). -/

namespace Sys2Proof.Machine

/-- A sequence as wide as the port is the sequence of the word it drives. -/
theorem toSeq_ofSeq_of_length {w : Nat} {bits : Bits} (h : bits.length = w) : toSeq (ofSeq w bits) = bits := by
  subst h
  exact toSeq_ofSeq bits

theorem toSeq_getElem? {w : Nat} (v : BitVec w) {i : Nat} (h : i < w) : (toSeq v)[i]? = some (v.getLsbD (w - 1 - i)) := by
  have inside : i < (toSeq v).length := by simpa using h
  rw [List.getElem?_eq_getElem inside, toSeq_getElem]

theorem getElem?_eq_ofSeq_getLsbD {w : Nat} {bits : Bits} (h : bits.length = w) {i : Nat} (hi : i < w) :
    bits[i]? = some ((ofSeq w bits).getLsbD (w - 1 - i)) := by
  rw [← toSeq_getElem? (ofSeq w bits) hi, toSeq_ofSeq_of_length h]

/-- Driving a port with two-valued bits of its width performs the operation of that port on them. -/
theorem step_drive_blockOf (s : State) (port : InPort) (bits : Bits) (h : bits.length = port.width) :
    step (s.pushMove (.drive (blockOf port bits))) = .next (after (instrAt port bits) s) := by
  rw [step_pushMove, runMove_drive_ok _ _ _ (decode_blockOf port bits h)]

/-- An output that carries a word reads as a sequence of the word's width, position i its vector bit w-1-i. -/
theorem readOut_positions {w : Nat} {s : State} {o : OutPort} {v : BitVec w} (h : s.outSeq o = some (toSeq v)) :
    ∃ seq, readOut s o = .ok seq ∧ seq.length = w ∧ ∀ i < w, seq[i]? = some (v.getLsbD (w - 1 - i)) :=
  ⟨toSeq v, (readOut_ok_iff _ _ _).mpr h, toSeq_length v, fun _ hi => toSeq_getElem? v hi⟩

/-- Settles O35: an input port holds the word its sequence stands for, and an output is read as the sequence of its word. -/
theorem sequencePositionsAreVectorBits : Obligations.SequencePositionsAreVectorBits := by
  refine ⟨fun s bits h => ?_, fun s bits h => ?_, fun s c h => ?_, fun s c h => ?_, fun s d h => ?_, fun s y h => ?_⟩
  · exact ⟨_, _, step_drive_blockOf s .encDataI bits h, rfl, fun _ hi => getElem?_eq_ofSeq_getLsbD h hi⟩
  · exact ⟨_, _, step_drive_blockOf s .decCodeI bits h, rfl, fun _ hi => getElem?_eq_ofSeq_getLsbD h hi⟩
  · exact readOut_positions (congrArg (Option.map toSeq) h)
  · exact readOut_positions (congrArg (Option.map toSeq) h)
  · exact readOut_positions (congrArg (Option.map toSeq) h)
  · exact readOut_positions (congrArg (Option.map toSeq) h)

end Sys2Proof.Machine
end

section
/-! PROOF. A unit is padded to whole data blocks, partitioned, and encoded block by block (20_memory.md R44). -/

namespace Sys2Proof.Machine

theorem padLength_lt (len : Nat) : padLength len < 4 := Nat.mod_lt _ (by decide)

theorem pad_length_mod (bits : Bits) : (pad bits).length % 4 = 0 := by
  simp only [pad, padLength, List.length_append, List.length_replicate]
  omega

theorem pad_of_aligned {bits : Bits} (h : bits.length % 4 = 0) : pad bits = bits := by
  simp [pad, padLength, h]

/-- A sequence of whole groups is cut into groups that are all full. -/
theorem groupsOf_all_full (n : Nat) (pos : 1 ≤ n) (bits : Bits) (whole : bits.length % n = 0) :
    ∀ g ∈ groupsOf n bits, g.length = n := by
  obtain ⟨k, len⟩ := Nat.dvd_of_mod_eq_zero whole
  induction k generalizing bits with
  | zero =>
    have empty : bits = [] := List.eq_nil_of_length_eq_zero len
    simp [empty, groupsOf, groupsFuel]
  | succ k ih =>
    rw [Nat.mul_succ] at len
    have first : (bits.take n).length = n := by rw [List.length_take]; omega
    have rest : (bits.drop n).length = n * k := by rw [List.length_drop]; omega
    rw [← List.take_append_drop n bits, groupsOf_append n pos _ _ first, List.forall_mem_cons]
    exact ⟨first, ih _ (by simp [rest]) rest⟩

/-- Where a call on any state completes for each block and its answer is a function of the block, the calls of the blocks in order
complete with the answers in order. -/
theorem callAll_ok {port : InPort} {out : OutPort} {f : Bits → Bits} (blocks : List Bits)
    (calls : ∀ b ∈ blocks, ∀ s, ∃ t, call s port b out = .ok (f b, t)) (s : State) :
    ∃ t, callAll port out s blocks = .ok (blocks.flatMap f, t) := by
  induction blocks generalizing s with
  | nil => exact ⟨s, rfl⟩
  | cons b bs ih =>
    rw [List.forall_mem_cons] at calls
    obtain ⟨callHead, callTail⟩ := calls
    obtain ⟨t, call_eq⟩ := callHead s
    obtain ⟨u, rest_eq⟩ := ih callTail t
    exact ⟨u, by simp [callAll, call_eq, rest_eq]⟩

/-- Encoding a padded unit completes from every state with the concatenation of its blocks' codewords. -/
theorem sendUnit_ok (s : State) (bits : Bits) :
    ∃ t, sendUnit s bits = .ok ((groupsOf 4 (pad bits)).flatMap (fun g => toSeq (encodeWord (ofSeq 4 g))), t) :=
  callAll_ok _ (fun g hg s => ⟨_, call_enc s g (groupsOf_all_full 4 (by decide) _ (pad_length_mod bits) g hg)⟩) s

/-- Settles O46: the padding completes the last data block, so every group is full and no call is refused. -/
theorem unitsArePaddedAndEncodedInOrder : Obligations.UnitsArePaddedAndEncodedInOrder := fun bits s =>
  ⟨pad_length_mod bits, ⟨padLength bits.length, padLength_lt _, rfl⟩, pad_of_aligned, groupsOf_flatten 4 (by decide) _,
    groupsOf_all_full 4 (by decide) _ (pad_length_mod bits), sendUnit_ok s bits⟩

end Sys2Proof.Machine
end

section
/-! PROOF. The two dividends and the low-order three bits of the window their division by G leaves (30_encoding.md R63 to R65). -/

namespace Sys2Proof.Machine

/-- A word with n zeros behind it is the widened word shifted left by n. -/
theorem append_zeros_eq_shiftLeft {m : Nat} (v : BitVec m) (n : Nat) : v ++ 0#n = v.setWidth (m + n) <<< n := by
  simp [BitVec.append_def, BitVec.shiftLeftZeroExtend_eq]

/-- The data block followed by 000 is the block widened to seven bits and shifted left by three (R63). -/
theorem encDividend_eq_shiftLeft (d : Data) : encDividend d = d.zeroExtend 7 <<< 3 :=
  append_zeros_eq_shiftLeft d 3

/-- The encoder's dividend in sequence order: the data block, then three zeros (R63). -/
theorem toSeq_encDividend (d : Data) : toSeq (encDividend d) = toSeq d ++ [false, false, false] :=
  toSeq_append d 0b000#3

/-- A SYN word in sequence order is its three coefficients, x^2 first (R62). -/
theorem toSeq_synOf (x2 x1 x0 : Bool) : toSeq (synOf x2 x1 x0) = [x2, x1, x0] := by
  cases x2 <;> cases x1 <;> cases x0 <;> rfl

/-- One reduction by G = 1011: the leading bit goes, and positions 2 and 3 take it in (R81). -/
theorem reduceWindow_gSeq (a b c d : Bool) : reduceWindow gSeq [a, b, c, d] = [false, b, c ^^ a, d ^^ a] := by
  cases a <;> simp [reduceWindow, xorSeq, gSeq, gPattern, toSeq, List.range_succ]

/-- One step of the loop with G: the reduced window without its leading 0, and the next dividend bit (R81). -/
theorem divStep_gSeq (a b c d next : Bool) : divStep gSeq [a, b, c, d] next = [b, c ^^ a, d ^^ a, next] := by
  rw [divStep, reduceWindow_gSeq]
  rfl

/-- The division of seven bits by G, computed on unknowns: the three XOR functions of R112 below a leading 0. -/
theorem divideWindow_gSeq (c6 c5 c4 c3 c2 c1 c0 : Bool) :
    divideWindow [c6, c5, c4, c3, c2, c1, c0] gSeq =
      [false, c6 ^^ c5 ^^ c4 ^^ c2, c5 ^^ c4 ^^ c3 ^^ c1, c6 ^^ c5 ^^ c3 ^^ c0] := by
  have loop : divideWindow [c6, c5, c4, c3, c2, c1, c0] gSeq =
      reduceWindow gSeq
        (divStep gSeq (divStep gSeq (divStep gSeq [c6, c5, c4, c3] c2) c1) c0) := rfl
  rw [loop, divStep_gSeq, divStep_gSeq, divStep_gSeq, reduceWindow_gSeq]
  simp only [List.cons.injEq, and_true, true_and]
  refine ⟨?_, ?_, ?_⟩ <;> cases c6 <;> simp [Bool.xor_comm, Bool.xor_left_comm]

/-- Dividing a received word by G leaves its syndrome below a leading 0 (R65, R112). -/
theorem divideWindow_toSeq_code (c : Code) : divideWindow (toSeq c) gSeq = false :: toSeq (syndrome c) := by
  rw [syndrome, toSeq_synOf]
  exact divideWindow_gSeq _ _ _ _ _ _ _

/-- A received word is in the domain of the division, whose window is the syndrome below a leading 0 (R64, R80). -/
theorem modulo2Divide_code (c : Code) : modulo2Divide (toSeq c) gSeq = .ok (false :: toSeq (syndrome c)) := by
  rw [modulo2Divide_ok _ _ (by decide) (by rw [toSeq_length]; decide) (by decide), divideWindow_toSeq_code]

/-- Settles O28: each dividend is in the division's domain, and the window is a 0 above the parity, respectively the syndrome. -/
theorem dividendsAndLowOrderBits : Obligations.DividendsAndLowOrderBits := by
  refine ⟨fun d => ⟨encDividend_eq_shiftLeft d, toSeq_encDividend d⟩, fun _ => rfl, fun d => ⟨_, ?_, rfl⟩,
    fun c => ⟨_, modulo2Divide_code c, rfl⟩⟩
  rw [toSeq_encDividend]
  exact modulo2Divide_encDividend d

end Sys2Proof.Machine
end

section
/-! PROOF. Every two-valued block as wide as its port is processed, and the blocks spell every word (30_encoding.md R67,
42_decoder.md R123). -/

namespace Sys2Proof.Machine

/-- Driving a two-valued block of the port's width is exec of the port's operation on the word the block spells (R67). -/
theorem step_drive_blockOf_eq_exec (s : State) (port : InPort) (bits : Bits) (h : bits.length = port.width) :
    step (s.pushMove (.drive (blockOf port bits))) = exec (instrAt port bits) s := by
  rw [step_drive_blockOf s port bits h, exec_eq_after]

/-- Every word of a port is spelled by some sequence of the port's width. -/
theorem exists_bits_ofSeq_eq {w : Nat} (v : BitVec w) : ∃ bits : Bits, bits.length = w ∧ ofSeq w bits = v :=
  ⟨toSeq v, toSeq_length v, ofSeq_toSeq v⟩

/-- Settles O14: a block of the port's width is admitted, its operation answers every word with a next state, and every word has
its block. -/
theorem everyInputWordIsProcessed : Obligations.EveryInputWordIsProcessed :=
  ⟨fun s bits h =>
      ⟨step_drive_blockOf_eq_exec s .encDataI bits h, step_drive_blockOf s .encDataI bits h⟩,
    fun s bits h =>
      ⟨_, _, _, rfl, step_drive_blockOf_eq_exec s .decCodeI bits h, step_drive_blockOf s .decCodeI bits h⟩,
    exists_bits_ofSeq_eq, exists_bits_ofSeq_eq⟩

end Sys2Proof.Machine
end

section
/-! PROOF. When the corrector inverts a bit: the nets `hit`, `pos`, `mask` and `corrected` for any table, and what follows for a
syndrome that selects no position (42_decoder.md R113 to R115, R124) and for the observation ports (R118). -/

namespace Sys2Proof.Machine

variable (table : SynTable) (y : Syn) (c : Code)

theorem hit_iff : hit y = true ↔ y ≠ 0b000#3 := bne_iff_ne

/-- No position is selected exactly for the all-zero syndrome and for one the table has no entry for (R114, R124). -/
theorem pos_eq_none_iff : pos table y = none ↔ y = 0b000#3 ∨ table y = none := by
  by_cases zero : y = 0b000#3 <;> simp [pos, hit, zero]

theorem mask_of_pos_none {table : SynTable} {y : Syn} (h : pos table y = none) : mask table y = 0#7 := by
  simp [mask, h]

theorem mask_of_pos_some {table : SynTable} {y : Syn} {p : Fin 7} (h : pos table y = some p) : mask table y = oneAt p := by
  simp [mask, h]

theorem oneAt_ne_zero (p : Fin 7) : oneAt p ≠ 0#7 := by
  revert p
  decide

/-- The mask is zero exactly when no position is selected: a one-hot word is not zero (R115). -/
theorem mask_eq_zero_iff : mask table y = 0#7 ↔ pos table y = none := by
  refine ⟨fun zero => ?_, mask_of_pos_none⟩
  cases h : pos table y with
  | none => rfl
  | some p => exact absurd ((mask_of_pos_some h).symm.trans zero) (oneAt_ne_zero p)

/-- The mask as a host sees it, the input XOR the corrected word (R27). -/
theorem xor_corrected : c ^^^ corrected table c = mask table (syndrome c) := by
  rw [corrected, ← BitVec.xor_assoc, BitVec.xor_self, BitVec.zero_xor]

theorem corrected_eq_self_iff : corrected table c = c ↔ pos table (syndrome c) = none :=
  xor_left_eq_self_iff.trans (mask_eq_zero_iff table (syndrome c))

/-- Where no position is selected, the decoder answers the received data bits and the received word. -/
theorem decodeWith_of_pos_none {table : SynTable} {c : Code} (h : pos table (syndrome c) = none) :
    decodeWith table c = (dataField c, syndrome c, c) := by
  rw [decodeWith, (corrected_eq_self_iff table c).mpr h]

/-- `SYN_TABLE` lacks an entry for the all-zero syndrome alone (R23, R68, R69). -/
theorem synTable_eq_none_iff : synTable y = none ↔ y = 0b000#3 := by
  revert y
  decide

/-- With `SYN_TABLE` the syndrome is non-zero exactly when a bit is inverted (R30). -/
theorem hit_iff_corrected_ne : hit (syndrome c) = true ↔ corrected synTable c ≠ c := by
  rw [hit_iff, ne_eq, ne_eq, corrected_eq_self_iff, pos_eq_none_iff, synTable_eq_none_iff, or_self]

/-- Reading an output that carries a value is a move that leaves the state as it was (R49). -/
theorem runMove_read_ok {s : State} {o : OutPort} {bits : Bits} (h : s.outSeq o = some bits) : runMove (.read o) s = .next s := by
  simp [runMove, (readOut_ok_iff _ _ _).mpr h]

/-- Once the decoder's input is driven, each of its outputs carries a value (R25). -/
theorem exists_outSeq_setDecoder (s : State) (out : Data × Syn × Code) {o : OutPort} (h : o.source = .decCodeI) :
    ∃ bits, (s.setDecoder c out).outSeq o = some bits := by
  cases o with
  | encCodeO => cases h
  | decDataO => exact ⟨toSeq out.1, rfl⟩
  | decSyndromeO => exact ⟨toSeq out.2.1, rfl⟩
  | decCorrectedO => exact ⟨toSeq out.2.2, rfl⟩

/-- A step that reads an output of the driven decoder leaves the state as it was. -/
theorem step_read_setDecoder (s : State) (out : Data × Syn × Code) {o : OutPort} (h : o.source = .decCodeI) :
    step ((s.setDecoder c out).pushMove (.read o)) = .next (s.setDecoder c out) := by
  obtain ⟨bits, carries⟩ := exists_outSeq_setDecoder c s out h
  rw [step_pushMove, runMove_read_ok carries]

end Sys2Proof.Machine
end

section
/-! PROOF. The statements on the decoder's stages (42_decoder.md R113, R118, R124). -/

namespace Sys2Proof.Machine

/-- Settles O9: the all-zero syndrome selects no position, so DEC answers the received word. -/
theorem zeroSyndromeInvertsNothing : Obligations.ZeroSyndromeInvertsNothing := by
  intro c s zero
  have unselected : pos synTable (syndrome c) = none := (pos_eq_none_iff _ _).mpr (.inl zero)
  rw [exec_dec, decodeWord, decodeWith_of_pos_none unselected, zero]
  rfl

/-- Settles O13: the state after DEC carries the nets; `SYN_TABLE` lacks an entry for 000 alone, so nothing is inverted exactly
for the all-zero syndrome. -/
theorem observationPortsCarryTheNets : Obligations.ObservationPortsCarryTheNets := fun c s =>
  ⟨s.setDecoder c (decodeWord c), exec_dec c s, rfl, rfl, congrArg some (xor_corrected synTable c), rfl,
    hit_iff_corrected_ne c, fun _ h => step_read_setDecoder c s _ h⟩

/-- Settles O22: only 000 lacks an entry in `SYN_TABLE`, and without an entry no position is selected. -/
theorem unmappedSyndromesCorrectNothing : Obligations.UnmappedSyndromesCorrectNothing :=
  ⟨fun y nonzero => Option.ne_none_iff_exists'.mp ((synTable_eq_none_iff y).not.mpr nonzero),
    fun table _ unmapped => decodeWith_of_pos_none ((pos_eq_none_iff table _).mpr (.inr unmapped))⟩

end Sys2Proof.Machine
end

section
/-! PROOF. What the boundary refuses: first a block that is not as wide as its port, then one with a bit that is not two-valued
(60_exceptions.md R150, R153, R155). -/

namespace Sys2Proof.Machine

theorem isKnown_eq_false_iff (b : HostBit) : b.isKnown = false ↔ b = .unknown ∨ b = .highZ := by
  cases b <;> simp [HostBit.isKnown]

/-- The position the boundary names is in the block, and the bit there is not two-valued (R153). -/
theorem getElem?_of_firstUnknown {bits : List HostBit} {i : Nat} (h : firstUnknown bits = some i) :
    i < bits.length ∧ (bits[i]? = some .unknown ∨ bits[i]? = some .highZ) := by
  obtain ⟨inside, unknown, -⟩ := List.findIdx?_eq_some_iff_getElem.mp h
  rw [Bool.not_eq_true', isKnown_eq_false_iff] at unknown
  rw [List.getElem?_eq_getElem inside, Option.some_inj, Option.some_inj]
  exact ⟨inside, unknown⟩

/-- A block with a bit that is not two-valued has a first one. -/
theorem exists_firstUnknown {bits : List HostBit} (h : ∃ b ∈ bits, b = .unknown ∨ b = .highZ) :
    ∃ i, firstUnknown bits = some i := by
  obtain ⟨b, mem, unknown⟩ := h
  rw [← Option.ne_none_iff_exists', ne_eq, firstUnknown_none_iff, List.all_eq_true]
  exact fun all_known => Bool.false_ne_true (((isKnown_eq_false_iff b).mpr unknown).symm.trans (all_known b mem))

/-- Driving a block that is not as wide as its port is refused, whatever bits it holds (R150). -/
theorem step_drive_badLength (s : State) (b : HostBlock) (h : b.bits.length ≠ b.port.width) :
    step (s.pushMove (.drive b)) = .refused (.badLength b.port b.bits.length) := by
  have rejected : decode b = .error (.badLength b.port b.bits.length) := by simp [decode, h]
  rw [step_pushMove, runMove_drive_error _ _ _ rejected, refusalOf]

/-- Driving a block of the port's width is refused naming its first bit that is not two-valued (R153). -/
theorem step_drive_unknownBit (s : State) (b : HostBlock) {i : Nat} (len : b.bits.length = b.port.width)
    (first : firstUnknown b.bits = some i) :
    step (s.pushMove (.drive b)) = .refused (.unknownBit b.port (b.port.width - 1 - i)) := by
  have rejected : decode b = .error (.unknownBit b.port (b.port.width - 1 - i)) := by simp [decode, len, first]
  rw [step_pushMove, runMove_drive_error _ _ _ rejected, refusalOf]

/-- Settles O31: the bit named is the vector bit of the block's first position that is not two-valued. -/
theorem unknownBitsAreRefusedAfterLength : Obligations.UnknownBitsAreRefusedAfterLength := by
  refine fun s port bits someUnknown => ⟨fun len => ?_, step_drive_badLength s ⟨port, bits⟩⟩
  obtain ⟨i, first⟩ := exists_firstUnknown someUnknown
  obtain ⟨inside, unknown⟩ := getElem?_of_firstUnknown first
  have vectorBit : port.width - 1 - i < port.width := by omega
  have position : port.width - 1 - (port.width - 1 - i) = i := by omega
  refine ⟨port.width - 1 - i, vectorBit, step_drive_unknownBit s ⟨port, bits⟩ len first, ?_⟩
  rwa [position]

end Sys2Proof.Machine
end

section
/-! PROOF. Blocks and operations are two presentations of one thing (30_encoding.md R60, R61, R66; 60_exceptions.md R150). -/

namespace Sys2Proof.Machine

/-- The condition under which the boundary admits a block, and the operation it then is. -/
theorem decode_eq_ok_iff (b : HostBlock) (i : Instr) :
    decode b = .ok i ↔
      b.bits.length = b.port.width ∧ b.bits.all HostBit.isKnown = true ∧ i = instrAt b.port (knownBits b.bits) := by
  obtain ⟨len, rejected⟩ | ⟨len, n, first, rejected⟩ | ⟨len, known, admitted⟩ := decode_cases b
  · simp [rejected, len]
  · have unknown : ¬ b.bits.all HostBit.isKnown = true := by
      rw [← firstUnknown_none_iff, first]
      exact Option.some_ne_none n
    simp [rejected, unknown]
  · simp [admitted, len, known, eq_comm]

theorem wellFormed_iff (b : HostBlock) :
    b.wellFormed = true ↔ b.bits.length = b.port.width ∧ b.bits.all HostBit.isKnown = true := by
  rw [HostBlock.wellFormed, Bool.and_eq_true, HostBlock.lengthOk, beq_iff_eq, HostBlock.allKnown]

theorem decode_encode (i : Instr) : decode (encode i) = .ok i := by
  cases i with
  | enc d => rw [encode, decode_blockOf .encDataI _ (toSeq_length d), instrAt, ofSeq_toSeq]
  | dec c => rw [encode, decode_blockOf .decCodeI _ (toSeq_length c), instrAt, ofSeq_toSeq]

theorem encode_inj {i j : Instr} (h : encode i = encode j) : i = j :=
  Except.ok.inj (by rw [← decode_encode i, h, decode_encode])

/-- The operation that a port performs on a sequence of its width is presented by that sequence. -/
theorem encode_instrAt (port : InPort) (bits : Bits) (h : bits.length = port.width) :
    encode (instrAt port bits) = blockOf port bits := by
  cases port with
  | encDataI => exact congrArg (blockOf .encDataI) (toSeq_ofSeq_of_length h)
  | decCodeI => exact congrArg (blockOf .decCodeI) (toSeq_ofSeq_of_length h)

/-- An admitted block is the one its operation is presented by. -/
theorem encode_of_decode {b : HostBlock} {i : Instr} (h : decode b = .ok i) : b = encode i := by
  obtain ⟨len, known, rfl⟩ := (decode_eq_ok_iff b i).mp h
  have values : (knownBits b.bits).map HostBit.ofBool = b.bits := ofBool_knownBits b.bits known
  have width : (knownBits b.bits).length = b.port.width := by
    rw [← len, ← congrArg List.length values, List.length_map]
  rw [encode_instrAt b.port _ width, blockOf, values]

/-- Settles O36: decode inverts encode, an admitted block is the presentation of its two-valued bits, and the two conditions of
admission are those of well-formedness. -/
theorem decodeAndEncodeAgree : Obligations.DecodeAndEncodeAgree := by
  refine ⟨decode_encode, fun _ _ h => encode_of_decode h, fun b => ?_⟩
  rw [wellFormed_iff]
  constructor
  · rintro ⟨len, known⟩
    exact ⟨_, (decode_eq_ok_iff b _).mpr ⟨len, known, rfl⟩⟩
  · rintro ⟨i, admitted⟩
    obtain ⟨len, known, -⟩ := (decode_eq_ok_iff b i).mp admitted
    exact ⟨len, known⟩

end Sys2Proof.Machine
end

section
/-! PROOF. The outputs stay the function of their own sub-block's input (10_state.md R20, R34; 70_reset_and_hazards.md R172). -/

namespace Sys2Proof.Machine

/-- An operation drives one sub-block with its function's value and leaves the other as it was. -/
theorem settled_after {s : State} (h : Settled s) (i : Instr) : Settled (after i s) := by
  obtain ⟨encoder, decoder⟩ := h
  cases i with
  | enc d => exact ⟨rfl, decoder⟩
  | dec c => exact ⟨encoder, rfl, rfl, rfl⟩

/-- Whether the ports are settled does not depend on the host's moves. -/
theorem settled_setPending_iff (s : State) (moves : List HostMove) : Settled (s.setPending moves) ↔ Settled s := Iff.rfl

/-- Settles O38: a step leaves the ports alone or performs one operation, and an operation keeps them settled. -/
theorem stepKeepsTheOutputsSettled : Obligations.StepKeepsTheOutputsSettled := by
  intro s t settled next
  obtain ⟨-, rfl⟩ | ⟨b, i, rest, -, -, rfl⟩ | ⟨o, bits, rest, -, -, rfl⟩ := step_next_cases next
  · exact settled
  · exact settled_after ((settled_setPending_iff s rest).mpr settled) i
  · exact (settled_setPending_iff s rest).mpr settled

/-- Settles O39: with no input driven each output has no value, and with no move to make a step is idle. -/
theorem resetIsSettledAndUndriven : Obligations.ResetIsSettledAndUndriven := by
  refine ⟨⟨rfl, rfl, rfl, rfl⟩, rfl, rfl, rfl, rfl, rfl, rfl, fun o => ?_, rfl, step_idle _ rfl⟩
  cases o <;> rfl

end Sys2Proof.Machine
end

section
/-! PROOF. What a step refuses, and that it never faults (60_exceptions.md R150, R151, R153; 70_reset_and_hazards.md R172). -/

namespace Sys2Proof.Machine

theorem width_pos (port : InPort) : 0 < port.width := by
  cases port <;> decide

/-- Reading an output whose input is not driven is refused, naming position 0 of that input (R172). -/
theorem runMove_read_undriven {s : State} {o : OutPort} (h : s.outSeq o = none) :
    runMove (.read o) s = .refused (.unknownBit o.source (o.source.width - 1)) := by
  have refused : readOut s o = .error (.unknownBit o.source (o.source.width - 1)) :=
    (readOut_error_iff s o _).mpr ⟨h, rfl⟩
  simp [runMove, refused]

/-- The host's moves are no part of what an output carries. -/
theorem outSeq_setPending (s : State) (moves : List HostMove) (o : OutPort) : (s.setPending moves).outSeq o = s.outSeq o := by
  cases o <;> rfl

/-- A step that is refused: a block was driven that the boundary rejects, or an output without a value was read. -/
theorem step_refused_cases {s : State} {r : Refusal} (h : step s = .refused r) :
    (∃ b rest rejection, s.pending = .drive b :: rest ∧ decode b = .error rejection ∧ r = refusalOf rejection) ∨
    (∃ o rest, s.pending = .read o :: rest ∧ s.outSeq o = none ∧
      r = .unknownBit o.source (o.source.width - 1)) := by
  cases hp : s.pending with
  | nil => rw [step_idle s hp] at h; cases h
  | cons m rest =>
    rw [step_move s m rest hp] at h
    cases m with
    | drive b =>
      cases hd : decode b with
      | ok i => rw [runMove_drive_ok _ _ _ hd] at h; cases h
      | error rejection =>
        rw [runMove_drive_error _ _ _ hd] at h
        cases h
        exact .inl ⟨b, rest, rejection, rfl, hd, rfl⟩
    | read o =>
      cases ho : s.outSeq o with
      | some bits => rw [runMove_read_ok ((outSeq_setPending s rest o).trans ho)] at h; cases h
      | none =>
        rw [runMove_read_undriven ((outSeq_setPending s rest o).trans ho)] at h
        cases h
        exact .inr ⟨o, rest, rfl, ho, rfl⟩

/-- What the boundary rejects a block for: its length is not the port's width, or a bit of the port is not two-valued. -/
theorem decode_error_cases {b : HostBlock} {rejection : Reject} (h : decode b = .error rejection) :
    (∃ n, rejection = .badLength b.port n ∧ n ≠ b.port.width) ∨
    (∃ bit, rejection = .unknownBit b.port bit ∧ bit < b.port.width) := by
  obtain ⟨len, rejected⟩ | ⟨len, n, first, rejected⟩ | ⟨len, known, admitted⟩ := decode_cases b
  · rw [rejected] at h
    cases h
    exact .inl ⟨_, rfl, len⟩
  · rw [rejected] at h
    cases h
    have pos := width_pos b.port
    exact .inr ⟨_, rfl, by omega⟩
  · rw [admitted] at h
    cases h

/-- Settles O32: the type of faults is empty, and the two refused moves name a length or a bit of a port. -/
theorem onlyTheBoundaryRefuses : Obligations.OnlyTheBoundaryRefuses := by
  refine fun s => ⟨nofun, fun r refused => ?_⟩
  obtain ⟨b, rest, rejection, -, rejected, rfl⟩ | ⟨o, rest, -, -, rfl⟩ := step_refused_cases refused
  · obtain ⟨n, rfl, len⟩ | ⟨bit, rfl, inside⟩ := decode_error_cases rejected
    · exact .inl ⟨b.port, n, rfl, len⟩
    · exact .inr ⟨b.port, bit, rfl, inside⟩
  · exact .inr ⟨o.source, _, rfl, Nat.sub_one_lt_of_lt (width_pos o.source)⟩

theorem isKnown_of_two_valued {b : HostBit} (h : b = .zero ∨ b = .one) : b.isKnown = true := by
  obtain rfl | rfl := h <;> rfl

/-- Settles O30: the first step of the run is refused, and a run ends at its first refusal. -/
theorem wrongLengthIsRefusedForGood : Obligations.WrongLengthIsRefusedForGood :=
  fun s port bits =>
    ⟨fun len => run_of_refused (step_drive_badLength s ⟨port, bits⟩ len),
      fun len twoValued => ⟨_, (decode_eq_ok_iff ⟨port, bits⟩ _).mpr
        ⟨len, List.all_eq_true.mpr fun b mem => isKnown_of_two_valued (twoValued b mem), rfl⟩⟩⟩

end Sys2Proof.Machine
end

section
/-! PROOF. What each kind of move makes a step do, and table words as blocks (30_encoding.md section 3, 20_memory.md R49). -/

namespace Sys2Proof.Machine

theorem decodeTableWord_eq_some_iff (nbits w : Nat) (i : Instr) :
    decodeTableWord nbits w = some i ↔ decode (tableBlock nbits w) = .ok i := by
  unfold decodeTableWord
  cases decode (tableBlock nbits w) <;> simp

/-- Settles O33: the move driven is admitted as the operation it decodes to. -/
theorem stepRunsTheDecodedOperation : Obligations.StepRunsTheDecodedOperation := by
  refine ⟨fun s b rest i next admitted => ?_, fun s nbits w i word => ?_⟩
  · rw [step_move s _ rest next, runMove_drive_ok b i _ admitted, exec_eq_after]
    rfl
  · rw [State.withFetchWord, step_pushMove, exec_eq_after,
      runMove_drive_ok _ i s ((decodeTableWord_eq_some_iff nbits w i).mp word)]

/-- Settles O34: a read is answered or refused by whether the output has a value, and changes only the move list. -/
theorem readsAndIdleStepsChangeNothing : Obligations.ReadsAndIdleStepsChangeNothing := by
  refine ⟨fun s o rest bits next carries => ?_, fun s o rest next undriven => ?_, step_idle⟩
  · rw [step_move s _ rest next, runMove_read_ok ((outSeq_setPending s rest o).trans carries)]
    rfl
  · exact ⟨_, by rw [step_move s _ rest next, runMove_read_undriven ((outSeq_setPending s rest o).trans undriven)]⟩

/-- Settles O37: five closed blocks, evaluated. -/
theorem handLaidBlocksDecode : Obligations.HandLaidBlocksDecode := by
  unfold Obligations.HandLaidBlocksDecode
  decide

end Sys2Proof.Machine
end

section
/-! PROOF. The two sub-blocks do not touch each other, and only the last input of each counts (10_state.md R20, R26, R33;
20_memory.md R49; 70_reset_and_hazards.md R176; 60_exceptions.md R161). -/

namespace Sys2Proof.Machine

/-- Settles O41: the frames of the two updates of the ports. -/
theorem encAndDecFrames : Obligations.EncAndDecFrames := by
  constructor
  · intro d s t next
    rw [exec_enc] at next
    cases next
    exact ⟨rfl, rfl, rfl, rfl, rfl⟩
  · intro c s t next
    rw [exec_dec] at next
    cases next
    exact ⟨rfl, rfl, rfl⟩

theorem after_idem (i : Instr) (s : State) : after i (after i s) = after i s := by
  cases i <;> rfl

/-- Settles O43: the two operations write disjoint ports, and an operation writes the same values again. -/
theorem operationsCommuteAndAreIdempotent : Obligations.OperationsCommuteAndAreIdempotent :=
  ⟨fun d c s => ⟨after (.enc d) s, after (.dec c) s, after (.dec c) (after (.enc d) s), rfl, rfl, rfl, rfl⟩,
    fun i s => ⟨after i s, exec_eq_after i s, by rw [exec_eq_after, after_idem]⟩⟩

/-- The encoder's ports after a step: driven with the word of an admitted block, or as they were. -/
theorem step_encoder_cases {s t : State} (h : step s = .next t) :
    (∃ d rest, s.pending = .drive (encode (.enc d)) :: rest ∧ t.encDataI = some d ∧ t.encCodeO = some (encodeWord d)) ∨
    (∀ d rest, s.pending ≠ .drive (encode (.enc d)) :: rest) ∧ t.encDataI = s.encDataI ∧ t.encCodeO = s.encCodeO := by
  obtain ⟨idle, rfl⟩ | ⟨b, i, rest, next, admitted, rfl⟩ | ⟨o, bits, rest, next, -, rfl⟩ := step_next_cases h
  · exact .inr ⟨by simp [idle], rfl, rfl⟩
  · rw [encode_of_decode admitted] at next
    cases i with
    | enc d => exact .inl ⟨d, rest, next, rfl, rfl⟩
    | dec c => exact .inr ⟨by simp [next, encode, blockOf], rfl, rfl⟩
  · exact .inr ⟨by simp [next], rfl, rfl⟩

/-- The decoder's ports after a step: driven with the word of an admitted block, or as they were. -/
theorem step_decoder_cases {s t : State} (h : step s = .next t) :
    (∃ c rest, s.pending = .drive (encode (.dec c)) :: rest ∧ t.decCodeI = some c ∧ t.decDataO = some (decodeWord c).1 ∧
      t.decSyndromeO = some (decodeWord c).2.1 ∧ t.decCorrectedO = some (decodeWord c).2.2) ∨
    (∀ c rest, s.pending ≠ .drive (encode (.dec c)) :: rest) ∧ t.decCodeI = s.decCodeI ∧ t.decDataO = s.decDataO ∧
      t.decSyndromeO = s.decSyndromeO ∧ t.decCorrectedO = s.decCorrectedO := by
  obtain ⟨idle, rfl⟩ | ⟨b, i, rest, next, admitted, rfl⟩ | ⟨o, bits, rest, next, -, rfl⟩ := step_next_cases h
  · exact .inr ⟨by simp [idle], rfl, rfl, rfl, rfl⟩
  · rw [encode_of_decode admitted] at next
    cases i with
    | enc d => exact .inr ⟨by simp [next, encode, blockOf], rfl, rfl, rfl, rfl⟩
    | dec c => exact .inl ⟨c, rest, next, rfl, rfl, rfl, rfl⟩
  · exact .inr ⟨by simp [next], rfl, rfl, rfl, rfl⟩

/-- Lists of moves that begin with the presentations of two operations are equal only if the operations are. -/
theorem instr_eq_of_moves_eq {i j : Instr} {rest rest' : List HostMove}
    (h : HostMove.drive (encode i) :: rest = .drive (encode j) :: rest') : i = j :=
  encode_inj (HostMove.drive.inj (List.head_eq_of_cons_eq h))

theorem step_pending {s t : State} (h : step s = .next t) : t.pending = s.pending.tail := by
  obtain ⟨idle, rfl⟩ | ⟨b, i, rest, next, -, rfl⟩ | ⟨o, bits, rest, next, -, rfl⟩ := step_next_cases h
  · rw [idle, List.tail_nil]
  · rw [next, after_pending, State.setPending_pending, List.tail_cons]
  · rw [next, State.setPending_pending, List.tail_cons]

/-- Two steps with the same moves, from states whose encoders agree, leave the encoders' outputs equal. -/
theorem step_encoder_congr {s t s' t' : State} (next : step s = .next t) (next' : step s' = .next t')
    (moves : s.pending = s'.pending) (code : s.encCodeO = s'.encCodeO) : t.encCodeO = t'.encCodeO := by
  obtain ⟨d, rest, hp, -, hcode⟩ | ⟨hp, -, hcode⟩ := step_encoder_cases next <;>
    obtain ⟨d', rest', hp', -, hcode'⟩ | ⟨hp', -, hcode'⟩ := step_encoder_cases next'
  · cases instr_eq_of_moves_eq (hp.symm.trans (moves.trans hp'))
    rw [hcode, hcode']
  · exact absurd (moves.symm.trans hp) (hp' d rest)
  · exact absurd (moves.trans hp') (hp d' rest')
  · rw [hcode, hcode', code]

/-- Two steps with the same moves, from states whose decoders agree, leave the decoders' outputs equal. -/
theorem step_decoder_congr {s t s' t' : State} (next : step s = .next t) (next' : step s' = .next t')
    (moves : s.pending = s'.pending) (data : s.decDataO = s'.decDataO) (syn : s.decSyndromeO = s'.decSyndromeO)
    (word : s.decCorrectedO = s'.decCorrectedO) :
    t.decDataO = t'.decDataO ∧ t.decSyndromeO = t'.decSyndromeO ∧ t.decCorrectedO = t'.decCorrectedO := by
  obtain ⟨c, rest, hp, -, hdata, hsyn, hword⟩ | ⟨hp, -, hdata, hsyn, hword⟩ := step_decoder_cases next <;>
    obtain ⟨c', rest', hp', -, hdata', hsyn', hword'⟩ | ⟨hp', -, hdata', hsyn', hword'⟩ := step_decoder_cases next'
  · cases instr_eq_of_moves_eq (hp.symm.trans (moves.trans hp'))
    rw [hdata, hdata', hsyn, hsyn', hword, hword']
    exact ⟨rfl, rfl, rfl⟩
  · exact absurd (moves.symm.trans hp) (hp' c rest)
  · exact absurd (moves.trans hp') (hp c' rest')
  · rw [hdata, hdata', hsyn, hsyn', hword, hword']
    exact ⟨data, syn, word⟩

/-- Settles O42: a sub-block's ports after a step are those of an admitted block driven at its own input, or what they were. -/
theorem stepTouchesOnlyTheDrivenSubBlock : Obligations.StepTouchesOnlyTheDrivenSubBlock := by
  refine ⟨fun s t next => ⟨fun undriven => ?_, fun undriven => ?_, step_pending next⟩, fun s t s' t' next next' moves =>
    ⟨fun _ => step_encoder_congr next next' moves, fun _ => step_decoder_congr next next' moves⟩⟩
  · obtain ⟨d, rest, driven, -⟩ | ⟨-, same⟩ := step_encoder_cases next
    · exact absurd driven (undriven _ rest)
    · exact same
  · obtain ⟨c, rest, driven, -⟩ | ⟨-, same⟩ := step_decoder_cases next
    · exact absurd driven (undriven _ rest)
    · exact same

/-- The state after a list of operations, oldest first. -/
def afterAll (ops : List Instr) (s : State) : State := ops.foldl (fun s i => after i s) s

theorem afterAll_cons (i : Instr) (ops : List Instr) (s : State) : afterAll (i :: ops) s = afterAll ops (after i s) := rfl

/-- The encoder's ports after a list of operations are those of its last ENC, if it holds one. -/
theorem afterAll_encoder (ops : List Instr) (s : State) :
    (afterAll ops s).encDataI = (lastEnc ops).or s.encDataI ∧
    (afterAll ops s).encCodeO = ((lastEnc ops).map encodeWord).or s.encCodeO := by
  induction ops generalizing s with
  | nil => exact ⟨rfl, rfl⟩
  | cons i is ih =>
    obtain ⟨input, output⟩ := ih (after i s)
    rw [afterAll_cons, input, output]
    cases i with
    | enc d => cases h : lastEnc is <;> simp [lastEnc, h, after]
    | dec c => simp [lastEnc, after]

/-- The decoder's ports after a list of operations are those of its last DEC, if it holds one. -/
theorem afterAll_decoder (ops : List Instr) (s : State) :
    (afterAll ops s).decCodeI = (lastDec ops).or s.decCodeI ∧
    (afterAll ops s).decDataO = ((lastDec ops).map fun c => (decodeWord c).1).or s.decDataO ∧
    (afterAll ops s).decSyndromeO = ((lastDec ops).map fun c => (decodeWord c).2.1).or s.decSyndromeO ∧
    (afterAll ops s).decCorrectedO = ((lastDec ops).map fun c => (decodeWord c).2.2).or s.decCorrectedO := by
  induction ops generalizing s with
  | nil => exact ⟨rfl, rfl, rfl, rfl⟩
  | cons i is ih =>
    obtain ⟨input, data, syn, word⟩ := ih (after i s)
    rw [afterAll_cons, input, data, syn, word]
    cases i with
    | enc d => simp [lastDec, after]
    | dec c => cases h : lastDec is <;> simp [lastDec, h, after]

theorem after_setPending (i : Instr) (s : State) (moves : List HostMove) :
    after i (s.setPending moves) = (after i s).setPending moves := by
  cases i <;> rfl

/-- The run that drives a list of operations performs each of them and leaves no move. -/
theorem run_drive_encode (ops : List Instr) (s : State) :
    Host.Core.run core ops.length (s.setPending (ops.map fun i => .drive (encode i))) =
      .next ((afterAll ops s).setPending []) := by
  induction ops generalizing s with
  | nil => rfl
  | cons i is ih =>
    have first : step (s.setPending ((i :: is).map fun i => .drive (encode i))) =
        .next ((after i s).setPending (is.map fun i => .drive (encode i))) := by
      rw [step_move _ _ _ rfl, runMove_drive_ok _ i _ (decode_encode i), State.setPending_setPending, after_setPending]
    rw [List.length_cons, run_of_next first, ih, afterAll_cons]

/-- Settles O40: the run performs every operation, and of those on one sub-block the last one counts. -/
theorem outputsDependOnTheLastInputOnly : Obligations.OutputsDependOnTheLastInputOnly := by
  intro ops s
  obtain ⟨encInput, encOutput⟩ := afterAll_encoder ops s
  obtain ⟨decInput, data, syn, word⟩ := afterAll_decoder ops s
  refine ⟨_, run_drive_encode ops s, rfl, ?_, ?_, ?_, ?_⟩
  · intro d last
    simp [encInput, encOutput, last]
  · intro last
    simp [encInput, encOutput, last]
  · intro c last
    simp [decInput, data, syn, word, last]
  · intro last
    simp [decInput, data, syn, word, last]

/-- A completed step of a system is a completed step of one copy, put in that copy's place. -/
theorem stepCopy_next {system system' : Copies} {k : Fin system.length} (h : stepCopy system k = .next system') :
    ∃ t, step system[k] = .next t ∧ system' = system.set k.val t := by
  unfold stepCopy at h
  split at h
  next t next =>
    cases h
    exact ⟨t, next, rfl⟩
  next => cases h
  next => cases h

/-- Settles O44: the list of copies is changed in one place. -/
theorem copiesNeverInteract : Obligations.CopiesNeverInteract := by
  intro system system' k completed
  obtain ⟨t, next, rfl⟩ := stepCopy_next completed
  exact ⟨List.length_set, ⟨t, next, List.getElem?_set_self k.isLt⟩, fun j other => List.getElem?_set_ne other.symm⟩

end Sys2Proof.Machine
end

section
/-! PROOF. Sequence positions inverted, and the weight of a word (00_scope.md R13). -/

namespace Sys2Proof.Machine

theorem oneAt_getLsbD (i j : Fin 7) : (oneAt i).getLsbD (6 - j.val) = (i == j) := by
  revert i j
  decide

theorem flipAt_getLsbD (w : Code) (i j : Fin 7) :
    (flipAt w i).getLsbD (6 - j.val) = (w.getLsbD (6 - j.val) ^^ (i == j)) := by
  rw [flipAt, BitVec.getLsbD_xor, oneAt_getLsbD]

theorem toSeq_flipAt (w : Code) (i : Fin 7) : toSeq (flipAt w i) = flipSeq (toSeq w) i.val := by
  refine List.ext_getElem (by simp [flipSeq]) fun j h _ => ?_
  have inside : j < 7 := by simpa using h
  have bit := flipAt_getLsbD w i ⟨j, inside⟩
  rw [toSeq_getElem, bit]
  simp only [flipSeq, List.getElem_modify, toSeq_getElem, beq_eq_decide, Fin.ext_iff]
  by_cases hit : i.val = j <;> simp [hit]

/-- Settles O45: on bits, `flip` is XOR with a word whose only 1 is at the position. -/
theorem flipInvertsOneSequencePosition : Obligations.FlipInvertsOneSequencePosition :=
  fun w i => ⟨toSeq_flipAt w i, flipAt_getLsbD w i⟩

theorem popcount_eq_zero_iff {w : Nat} (v : BitVec w) : popcount v = 0 ↔ v = 0#w := by
  rw [popcount, List.count_eq_zero]
  constructor
  · intro none_true
    apply BitVec.eq_of_getLsbD_eq
    intro j hj
    have back : w - 1 - (w - 1 - j) = j := by omega
    have at_pos := toSeq_getElem? v (i := w - 1 - j) (by omega)
    rw [back] at at_pos
    rw [BitVec.getLsbD_zero]
    exact Bool.eq_false_of_not_eq_true fun bit => none_true (List.mem_of_getElem? (at_pos.trans (congrArg some bit)))
  · rintro rfl
    simp [toSeq]

/-- Inverting a 0 adds one to the weight, inverting a 1 takes one away. -/
theorem popcount_flipAt (w : Code) (i : Fin 7) :
    popcount (flipAt w i) = if w.getLsbD (6 - i.val) then popcount w - 1 else popcount w + 1 := by
  have inside : i.val < (toSeq w).length := by simp
  rw [popcount, toSeq_flipAt, flipSeq, List.modify_eq_set_get not inside, List.count_set inside, List.get_eq_getElem,
    toSeq_getElem]
  cases w.getLsbD (6 - i.val) <;> simp [popcount]

theorem popcount_oneAt (i : Fin 7) : popcount (oneAt i) = 1 := by
  have weight := popcount_flipAt 0#7 i
  rw [flipAt, BitVec.zero_xor] at weight
  rw [weight, BitVec.getLsbD_zero, (popcount_eq_zero_iff 0#7).mpr rfl]
  rfl

/-- A word that is not zero has a 1 at some sequence position. -/
theorem exists_getLsbD_of_ne_zero {w : Code} (h : w ≠ 0#7) : ∃ i : Fin 7, w.getLsbD (6 - i.val) = true := by
  by_contra! all_zero
  apply h
  apply BitVec.eq_of_getLsbD_eq
  intro j hj
  have back : 6 - (6 - j) = j := by omega
  have bit := all_zero ⟨6 - j, by omega⟩
  rw [back] at bit
  rw [BitVec.getLsbD_zero]
  exact Bool.eq_false_of_not_eq_true bit

/-- The words of weight 1 are the one-hot words. -/
theorem popcount_eq_one_iff (w : Code) : popcount w = 1 ↔ ∃ i, w = oneAt i := by
  constructor
  · intro weight
    have nonzero : w ≠ 0#7 := fun zero => by
      rw [(popcount_eq_zero_iff w).mpr zero] at weight
      exact absurd weight (by decide)
    obtain ⟨i, bit⟩ := exists_getLsbD_of_ne_zero nonzero
    have flipped : popcount (flipAt w i) = 0 := by rw [popcount_flipAt, if_pos bit, weight]
    exact ⟨i, BitVec.xor_eq_zero_iff.mp ((popcount_eq_zero_iff _).mp flipped)⟩
  · rintro ⟨i, rfl⟩
    exact popcount_oneAt i

end Sys2Proof.Machine
end

section
/-! PROOF. The code is linear over GF(2): parity, codeword and syndrome of an XOR, and the codewords as the words of syndrome 000
(41_encoder.md R91, R94; 42_decoder.md R112). -/

namespace Sys2Proof.Machine

theorem synOf_xor (x2 x1 x0 y2 y1 y0 : Bool) :
    synOf x2 x1 x0 ^^^ synOf y2 y1 y0 = synOf (x2 ^^ y2) (x1 ^^ y1) (x0 ^^ y0) := by
  revert x2 x1 x0 y2 y1 y0
  decide

theorem synOf_getLsbD (x2 x1 x0 : Bool) :
    (synOf x2 x1 x0).getLsbD 2 = x2 ∧ (synOf x2 x1 x0).getLsbD 1 = x1 ∧ (synOf x2 x1 x0).getLsbD 0 = x0 := by
  revert x2 x1 x0
  decide

theorem parity_xor (a b : Data) : parity (a ^^^ b) = parity a ^^^ parity b := by
  simp only [parity, synOf_xor, BitVec.getLsbD_xor, Bool.xor_assoc, Bool.xor_left_comm]

theorem encodeWord_xor (a b : Data) : encodeWord (a ^^^ b) = encodeWord a ^^^ encodeWord b := by
  rw [encodeWord, parity_xor]
  exact BitVec.xor_append.symm

theorem encodeWord_zero : encodeWord 0#4 = 0#7 := by
  decide

theorem dataField_encodeWord (d : Data) : dataField (encodeWord d) = d := BitVec.extractLsb'_append_eq_left

theorem parityField_encodeWord (d : Data) : parityField (encodeWord d) = parity d := BitVec.extractLsb'_append_eq_right

theorem codeOf_fields (c : Code) : codeOf (dataField c) (parityField c) = c := BitVec.extractLsb'_append_extractLsb'

theorem dataField_xor (a b : Code) : dataField (a ^^^ b) = dataField a ^^^ dataField b := BitVec.extractLsb'_xor

theorem parityField_xor (a b : Code) : parityField (a ^^^ b) = parityField a ^^^ parityField b := BitVec.extractLsb'_xor

theorem dataField_getLsbD (c : Code) {j : Nat} (h : j < 4) : (dataField c).getLsbD j = c.getLsbD (3 + j) := by
  simp [dataField, h]

theorem parityField_getLsbD (c : Code) {j : Nat} (h : j < 3) : (parityField c).getLsbD j = c.getLsbD j := by
  simp [parityField, h]

theorem synOf_bits (y : Syn) : synOf (y.getLsbD 2) (y.getLsbD 1) (y.getLsbD 0) = y := by
  revert y
  decide

/-- The syndrome is the parity of the received data bits XOR the received parity bits (R112). -/
theorem syndrome_eq_parity_xor (c : Code) : syndrome c = parity (dataField c) ^^^ parityField c := by
  have received := synOf_bits (parityField c)
  rw [← received, parity, synOf_xor, syndrome]
  simp only [dataField_getLsbD, parityField_getLsbD, Nat.reduceLT, Nat.reduceAdd, Bool.xor_assoc]

theorem syndrome_xor (a b : Code) : syndrome (a ^^^ b) = syndrome a ^^^ syndrome b := by
  simp only [syndrome_eq_parity_xor, dataField_xor, parityField_xor, parity_xor]
  ac_rfl

theorem syndrome_encodeWord (d : Data) : syndrome (encodeWord d) = 0b000#3 := by
  rw [syndrome_eq_parity_xor, dataField_encodeWord, parityField_encodeWord, BitVec.xor_self]

/-- A word of syndrome 000 is the codeword of its own data bits. -/
theorem eq_encodeWord_of_syndrome {c : Code} (h : syndrome c = 0b000#3) : c = encodeWord (dataField c) := by
  rw [syndrome_eq_parity_xor, BitVec.xor_eq_zero_iff] at h
  rw [encodeWord, h, codeOf_fields]

/-- The codewords are the words of syndrome 000. -/
theorem isCodeword_iff (c : Code) : IsCodeword c ↔ syndrome c = 0b000#3 := by
  constructor
  · rintro ⟨d, rfl⟩
    exact syndrome_encodeWord d
  · exact fun zero => ⟨dataField c, eq_encodeWord_of_syndrome zero⟩

theorem isCodeword_xor {a b : Code} (ha : IsCodeword a) (hb : IsCodeword b) : IsCodeword (a ^^^ b) := by
  rw [isCodeword_iff] at ha hb ⊢
  rw [syndrome_xor, ha, hb]
  rfl

/-- An error pattern added to a codeword has the pattern's own syndrome. -/
theorem syndrome_encodeWord_xor (d : Data) (e : Code) : syndrome (encodeWord d ^^^ e) = syndrome e := by
  rw [syndrome_xor, syndrome_encodeWord, BitVec.zero_xor]

/-- The weights of the sixteen codewords (R96). -/
theorem popcount_encodeWord (d : Data) :
    popcount (encodeWord d) = 0 ∨ popcount (encodeWord d) = 3 ∨ popcount (encodeWord d) = 4 ∨
      popcount (encodeWord d) = 7 := by
  revert d
  decide

theorem popcount_of_isCodeword {w : Code} (h : IsCodeword w) :
    popcount w = 0 ∨ popcount w = 3 ∨ popcount w = 4 ∨ popcount w = 7 := by
  obtain ⟨d, rfl⟩ := h
  exact popcount_encodeWord d

/-- The only codeword of weight 7 has all bits 1 (R96). -/
theorem popcount_encodeWord_eq_seven_iff (d : Data) : popcount (encodeWord d) = 7 ↔ encodeWord d = 0b1111111#7 := by
  revert d
  decide

/-- A codeword that is not zero has weight at least 3, which is the distance of the code (R96). -/
theorem three_le_popcount {w : Code} (h : IsCodeword w) (nonzero : w ≠ 0#7) : 3 ≤ popcount w := by
  have not_zero := (popcount_eq_zero_iff w).not.mpr nonzero
  have weight := popcount_of_isCodeword h
  omega

end Sys2Proof.Machine
end

section
/-! PROOF. The statements on the encoder's equations (41_encoder.md R90, R91, R94, R96). -/

namespace Sys2Proof.Machine

/-- Settles O2: the codeword is the data bits above the parity net, and the net is the division's window without its leading 0. -/
theorem encAnswersTheParityEquations : Obligations.EncAnswersTheParityEquations := by
  intro d s
  obtain ⟨parity2, parity1, parity0⟩ := synOf_getLsbD (d.getLsbD 3 ^^ d.getLsbD 2 ^^ d.getLsbD 1)
    (d.getLsbD 2 ^^ d.getLsbD 1 ^^ d.getLsbD 0) (d.getLsbD 3 ^^ d.getLsbD 2 ^^ d.getLsbD 0)
  have data (j : Nat) (h : j < 4) : (encodeWord d).getLsbD (3 + j) = d.getLsbD j := by
    rw [← dataField_getLsbD _ h, dataField_encodeWord]
  have low (j : Nat) (h : j < 3) : (encodeWord d).getLsbD j = (parity d).getLsbD j := by
    rw [← parityField_getLsbD _ h, parityField_encodeWord]
  exact ⟨_, encodeWord d, false :: toSeq (parity d), exec_enc d s, rfl, rfl, data 3 (by decide), data 2 (by decide),
    data 1 (by decide), data 0 (by decide), (low 2 (by decide)).trans parity2, (low 1 (by decide)).trans parity1,
    (low 0 (by decide)).trans parity0, dataField_encodeWord d, modulo2Divide_encDividend d,
    congrArg toSeq (parityField_encodeWord d).symm⟩

/-- Settles O4: the encoder's function is linear. -/
theorem encIsLinear : Obligations.EncIsLinear := by
  intro a b s
  refine ⟨encodeWord a, encodeWord b, exec_enc a s, exec_enc b s, ?_, ?_⟩
  · rw [← encodeWord_xor]
    exact exec_enc (a ^^^ b) s
  · rw [← encodeWord_zero]
    exact exec_enc 0#4 s

/-- Settles O6: the counts and weights run over the sixteen codewords, and two codewords differ in a codeword that is not zero. -/
theorem codewordWeightsAndDistances : Obligations.CodewordWeightsAndDistances := by
  refine ⟨by decide, by decide, fun w codeword => ?_, ⟨0b0000#4, by decide⟩, ⟨0b1111#4, by decide⟩,
    fun w v hw hv different => three_le_popcount (isCodeword_xor hw hv) (BitVec.xor_eq_zero_iff.not.mpr different)⟩
  refine ⟨popcount_eq_zero_iff w, ?_, popcount_of_isCodeword codeword⟩
  obtain ⟨d, rfl⟩ := codeword
  exact popcount_encodeWord_eq_seven_iff d

/-- The low-order three bits of a 4-bit window are what stands below its leading bit (R65). -/
theorem lowThree_cons (b : Bool) {rest : Bits} (h : rest.length = 3) : lowThree (b :: rest) = rest := by
  simp [lowThree, slice, h]

theorem lowThree_cons_toSeq (b : Bool) (y : Syn) : lowThree (b :: toSeq y) = toSeq y :=
  lowThree_cons b (toSeq_length y)

/-- The pseudocode over sequences gives the hardware's codeword (R90, R91). -/
theorem refEncode_toSeq (d : Data) : refEncode (toSeq d) = .ok (toSeq (encodeWord d)) := by
  rw [refEncode, modulo2Divide_encDividend]
  exact congrArg Except.ok (by rw [lowThree_cons_toSeq, toSeq_encodeWord])

/-- The codewords of R90's corner cases and example. -/
theorem encodeWord_corner_cases :
    ∀ e ∈ [(0b0000#4, 0b0000000#7), (0b1111#4, 0b1111111#7), (0b1000#4, 0b1000101#7), (0b0100#4, 0b0100111#7),
      (0b0010#4, 0b0010110#7), (0b0001#4, 0b0001011#7), (0b1011#4, 0b1011000#7)], encodeWord e.1 = e.2 := by
  rw [← List.forall_iff_forall_mem]
  decide

/-- The parity of a single data bit is the power of x of its position (R84, R90). -/
theorem parity_single_bit (i : Fin 4) : parity (1#4 <<< (3 - i.val)) = errorSyndrome ⟨i.val, by omega⟩ := by
  revert i
  decide

/-- Settles O1: the equations agree with the pseudocode, and the boundary refuses a block of another length. -/
theorem encFollowsItsRule : Obligations.EncFollowsItsRule := by
  refine ⟨fun d s => ⟨encodeWord d, exec_enc d s, refEncode_toSeq d⟩,
    fun s bits len => step_drive_badLength s ⟨.encDataI, bits⟩ len, fun e mem s => ?_,
    fun i s => ⟨_, exec_enc _ s, (parityField_encodeWord _).trans (parity_single_bit i)⟩⟩
  rw [← encodeWord_corner_cases e mem]
  exact exec_enc e.1 s

end Sys2Proof.Machine
end

section
/-! PROOF. The decoder: which error each syndrome stands for, and how the decoder acts on a codeword with an error pattern added
(42_decoder.md R114, R115, R119, R120). -/

namespace Sys2Proof.Machine

theorem errorSyndrome_ne_zero (i : Fin 7) : errorSyndrome i ≠ 0b000#3 := by
  revert i
  decide

theorem errorSyndrome_injective {i j : Fin 7} (h : errorSyndrome i = errorSyndrome j) : i = j := by
  revert i j
  decide

/-- The syndrome of a one-hot word is the power of x of its position (R84). -/
theorem syndrome_oneAt (i : Fin 7) : syndrome (oneAt i) = errorSyndrome i := by
  revert i
  decide

/-- `SYN_TABLE` sends each position's syndrome to the position, and no other syndrome to it (R23). -/
theorem synTable_eq_some_iff (y : Syn) (p : Fin 7) : synTable y = some p ↔ y = errorSyndrome p := by
  revert y p
  decide

/-- Every syndrome that is not 000 is that of one inverted position. -/
theorem exists_errorSyndrome {y : Syn} (h : y ≠ 0b000#3) : ∃ i, errorSyndrome i = y := by
  obtain ⟨i, entry⟩ := Option.ne_none_iff_exists'.mp ((synTable_eq_none_iff y).not.mpr h)
  exact ⟨i, ((synTable_eq_some_iff y i).mp entry).symm⟩

theorem pos_of_ne_zero (table : SynTable) {y : Syn} (h : y ≠ 0b000#3) : pos table y = table y :=
  if_pos ((hit_iff y).mpr h)

/-- With `SYN_TABLE`, a position is selected exactly by its syndrome (R114). -/
theorem pos_synTable_eq_some_iff (y : Syn) (p : Fin 7) : pos synTable y = some p ↔ y = errorSyndrome p := by
  rw [← synTable_eq_some_iff]
  by_cases zero : y = 0b000#3
  · rw [(pos_eq_none_iff _ _).mpr (.inl zero), (synTable_eq_none_iff y).mpr zero]
  · rw [pos_of_ne_zero _ zero]

theorem mask_errorSyndrome (i : Fin 7) : mask synTable (errorSyndrome i) = oneAt i :=
  mask_of_pos_some ((pos_synTable_eq_some_iff _ _).mpr rfl)

theorem mask_zero (table : SynTable) : mask table 0b000#3 = 0#7 :=
  mask_of_pos_none ((pos_eq_none_iff _ _).mpr (.inl rfl))

/-- The mask is the error of weight at most 1 that the syndrome stands for (R115). -/
theorem syndrome_mask (y : Syn) : syndrome (mask synTable y) = y := by
  by_cases zero : y = 0b000#3
  · rw [zero, mask_zero]
    rfl
  · obtain ⟨i, rfl⟩ := exists_errorSyndrome zero
    rw [mask_errorSyndrome, syndrome_oneAt]

theorem popcount_mask_le_one (table : SynTable) (y : Syn) : popcount (mask table y) ≤ 1 := by
  cases h : pos table y with
  | none => rw [mask_of_pos_none h, (popcount_eq_zero_iff _).mpr rfl]; decide
  | some p => rw [mask_of_pos_some h, popcount_oneAt]

/-- A codeword added to the received word is added to the corrected word: only the error decides the mask. -/
theorem corrected_encodeWord_xor (table : SynTable) (d : Data) (e : Code) :
    corrected table (encodeWord d ^^^ e) = encodeWord d ^^^ corrected table e := by
  rw [corrected, corrected, syndrome_encodeWord_xor, BitVec.xor_assoc]

/-- The decoder on a codeword with an error pattern: what it gives for the pattern alone, with the codeword added. -/
theorem decodeWith_encodeWord_xor (table : SynTable) (d : Data) (e : Code) :
    decodeWith table (encodeWord d ^^^ e) =
      (d ^^^ (decodeWith table e).1, syndrome e, encodeWord d ^^^ (decodeWith table e).2.2) := by
  rw [decodeWith, corrected_encodeWord_xor, dataField_xor, dataField_encodeWord, syndrome_encodeWord_xor]
  rfl

/-- What the hardwired table corrects is always a codeword: the mask has the received word's own syndrome. -/
theorem isCodeword_corrected (c : Code) : IsCodeword (corrected synTable c) := by
  rw [isCodeword_iff, corrected, syndrome_xor, syndrome_mask, BitVec.xor_self]

/-- The corrected word is the codeword of the decoded data (R125). -/
theorem corrected_eq_encodeWord (c : Code) : corrected synTable c = encodeWord (decodeWord c).1 :=
  eq_encodeWord_of_syndrome ((isCodeword_iff _).mp (isCodeword_corrected c))

theorem distance_corrected_le_one (table : SynTable) (c : Code) : distance c (corrected table c) ≤ 1 := by
  rw [distance, xor_corrected]
  exact popcount_mask_le_one table _

/-- A table that sends a position's syndrome to the position removes the error there. -/
theorem corrected_oneAt {table : SynTable} {i : Fin 7} (h : table (errorSyndrome i) = some i) :
    corrected table (oneAt i) = 0#7 := by
  have selected : pos table (errorSyndrome i) = some i := (pos_of_ne_zero table (errorSyndrome_ne_zero i)).trans h
  rw [corrected, syndrome_oneAt, mask_of_pos_some selected, BitVec.xor_self]

/-- Single-bit correction by such a table (R119). -/
theorem decodeWith_flipAt {table : SynTable} {i : Fin 7} (h : table (errorSyndrome i) = some i) (d : Data) :
    decodeWith table (flipAt (encodeWord d) i) = (d, errorSyndrome i, encodeWord d) := by
  rw [flipAt, decodeWith_encodeWord_xor, decodeWith, corrected_oneAt h, syndrome_oneAt, BitVec.xor_zero,
    show dataField 0#7 = 0#4 from rfl, BitVec.xor_zero]

theorem decodeWord_flipAt (d : Data) (i : Fin 7) :
    decodeWord (flipAt (encodeWord d) i) = (d, errorSyndrome i, encodeWord d) :=
  decodeWith_flipAt ((synTable_eq_some_iff _ _).mpr rfl) d

/-- A codeword decodes to its data, unchanged (R121). -/
theorem decodeWord_encodeWord (d : Data) : decodeWord (encodeWord d) = (d, 0b000#3, encodeWord d) := by
  have unselected : pos synTable (syndrome (encodeWord d)) = none := by
    rw [syndrome_encodeWord]
    rfl
  rw [decodeWord, decodeWith_of_pos_none unselected, syndrome_encodeWord, dataField_encodeWord]

end Sys2Proof.Machine
end

section
/-! PROOF. The statements on the decoder's stages (42_decoder.md R110 to R117; 10_state.md R22, R23). -/

namespace Sys2Proof.Machine

/-- Settles O8: the three XOR functions are the division's window without its leading 0, and split into the parity of the data bits
and the parity bits. -/
theorem syndromeIsTheRemainder : Obligations.SyndromeIsTheRemainder := by
  intro c
  obtain ⟨bit2, bit1, bit0⟩ := synOf_getLsbD (c.getLsbD 6 ^^ c.getLsbD 5 ^^ c.getLsbD 4 ^^ c.getLsbD 2)
    (c.getLsbD 5 ^^ c.getLsbD 4 ^^ c.getLsbD 3 ^^ c.getLsbD 1) (c.getLsbD 6 ^^ c.getLsbD 5 ^^ c.getLsbD 3 ^^ c.getLsbD 0)
  exact ⟨syndrome c, _, fun s => ⟨_, exec_dec c s, rfl⟩, modulo2Divide_code c, rfl, bit2, bit1, bit0,
    syndrome_eq_parity_xor c⟩

/-- Settles O10: `SYN_TABLE` selects a position exactly by its syndrome, and 000 selects none. -/
theorem lookupTableSelectsThePosition : Obligations.LookupTableSelectsThePosition := by
  refine ⟨?_, rfl, rfl, fun y => ⟨hit_iff y, fun nonzero => pos_of_ne_zero synTable ((hit_iff y).mp nonzero)⟩⟩
  rw [← List.forall_iff_forall_mem]
  decide

/-- Settles O29: the closed constants, evaluated. -/
theorem constantsAreAsGiven : Obligations.ConstantsAreAsGiven := by
  refine ⟨rfl, rfl, rfl, ?_⟩
  rw [← List.forall_iff_forall_mem]
  decide

/-- Mask bit j is 1 exactly for the syndrome x^j mod g (R115). -/
theorem mask_getLsbD (y : Syn) (j : Fin 7) : (mask synTable y).getLsbD j.val = (y == xPowMod j) := by
  revert y j
  decide

/-- Settles O11: the mask is the one-hot word of the position selected, or zero. -/
theorem correctorInvertsAtMostOneBit : Obligations.CorrectorInvertsAtMostOneBit := by
  refine ⟨fun c s => ⟨_, corrected synTable c, exec_dec c s, rfl, fun p selected => ?_, fun zero => ?_,
    distance_corrected_le_one synTable c⟩, fun y j => ?_⟩
  · rw [corrected, mask_of_pos_some selected, oneAt]
  · by_contra changed
    rw [(hit_iff_corrected_ne c).mpr changed] at zero
    cases zero
  · rw [mask_getLsbD, beq_iff_eq]

/-- A data bit of the decoder is the received bit XOR the mask bit (R116, R117). -/
theorem decodeWord_data_getLsbD (c : Code) (j : Nat) (h : j < 4) :
    (decodeWord c).1.getLsbD j = (c.getLsbD (3 + j) ^^ (syndrome c == xPowMod ⟨3 + j, by omega⟩)) := by
  rw [← mask_getLsbD, ← BitVec.getLsbD_xor]
  exact dataField_getLsbD _ h

/-- Settles O12: the closed form reads the mask bit by bit. -/
theorem dataOutputClosedForm : Obligations.DataOutputClosedForm := fun c s =>
  ⟨_, (decodeWord c).1, corrected synTable c, exec_dec c s, rfl, rfl, rfl, decodeWord_data_getLsbD c 3 (by decide),
    decodeWord_data_getLsbD c 2 (by decide), decodeWord_data_getLsbD c 1 (by decide), decodeWord_data_getLsbD c 0 (by decide)⟩

/-- The first four positions of a word are its data field (R61, R116). -/
theorem slice_toSeq_data (c : Code) : slice (toSeq c) 0 3 = toSeq (dataField c) := by
  have split : toSeq c = toSeq (dataField c) ++ toSeq (parityField c) := by
    rw [← toSeq_append]
    exact congrArg toSeq (codeOf_fields c).symm
  rw [split]
  exact List.take_left' (toSeq_length _)

/-- The working copy of the pseudocode is the corrector's output (R110, R115). -/
theorem refCorrect_toSeq (c : Code) : refCorrect (toSeq c) (toSeq (syndrome c)) = toSeq (corrected synTable c) := by
  have zeros : toSeq (0b000#3 : Syn) = [false, false, false] := rfl
  unfold refCorrect
  by_cases zero : syndrome c = 0b000#3
  · rw [zero, if_pos zeros, corrected, zero, mask_zero, BitVec.xor_zero]
  · obtain ⟨i, syn⟩ := exists_errorSyndrome zero
    have entry : synTable (syndrome c) = some i := (synTable_eq_some_iff _ _).mpr syn.symm
    rw [if_neg fun h => zero (toSeq_inj (h.trans zeros.symm)), ofSeq_toSeq, entry, corrected, ← syn, mask_errorSyndrome]
    exact (toSeq_flipAt c i).symm

/-- The pseudocode over sequences gives the hardware's outputs (R110). -/
theorem refDecode_toSeq (c : Code) :
    refDecode (toSeq c) = .ok ⟨toSeq (decodeWord c).1, toSeq (syndrome c), toSeq (corrected synTable c)⟩ := by
  have window := modulo2Divide_code c
  simp only [refDecode, window, lowThree_cons_toSeq, refCorrect_toSeq, slice_toSeq_data]
  rfl

/-- An error pattern that leaves the data unchanged has weight at most 1: what is left of it after correction is the codeword
of 0000, so the pattern is its own mask (R122). -/
theorem popcount_le_one_of_data_zero {e : Code} (h : (decodeWord e).1 = 0#4) : popcount e ≤ 1 := by
  have removed : corrected synTable e = 0#7 := by rw [corrected_eq_encodeWord, h, encodeWord_zero]
  rw [BitVec.xor_eq_zero_iff.mp removed]
  exact popcount_mask_le_one _ _

theorem decodeWord_encodeWord_xor_data (d : Data) (e : Code) :
    (decodeWord (encodeWord d ^^^ e)).1 = d ^^^ (decodeWord e).1 :=
  congrArg Prod.fst (decodeWith_encodeWord_xor synTable d e)

/-- One inverted position is corrected. -/
theorem decodeWord_data_of_popcount_one (d : Data) {e : Code} (h : popcount e = 1) : (decodeWord (encodeWord d ^^^ e)).1 = d := by
  obtain ⟨i, rfl⟩ := (popcount_eq_one_iff e).mp h
  exact congrArg Prod.fst (decodeWord_flipAt d i)

/-- Two or more inverted positions give wrong data (R122). -/
theorem decodeWord_data_ne (d : Data) {e : Code} (h : 2 ≤ popcount e) : (decodeWord (encodeWord d ^^^ e)).1 ≠ d := by
  rw [decodeWord_encodeWord_xor_data, ne_eq, xor_left_eq_self_iff]
  intro zero
  exact absurd (popcount_le_one_of_data_zero zero) (by omega)

theorem dataField_encodeWord_xor (d : Data) (e : Code) : dataField (encodeWord d ^^^ e) = d ^^^ dataField e := by
  rw [dataField_xor, dataField_encodeWord]

/-- Settles O7: the stages agree with the pseudocode, the boundary refuses a block of another length, and the corner cases follow
from how the decoder acts on an error pattern. -/
theorem decFollowsItsRule : Obligations.DecFollowsItsRule := by
  refine ⟨fun c s => ⟨_, _, _, exec_dec c s, refDecode_toSeq c⟩,
    fun s bits len => step_drive_badLength s ⟨.decCodeI, bits⟩ len,
    fun d e s => ⟨_, _, _, exec_dec _ s, ?_, decodeWord_data_of_popcount_one d, fun one low => ?_, decodeWord_data_ne d⟩,
    fun s => ⟨rfl, rfl, rfl, rfl⟩⟩
  · rintro rfl
    rw [BitVec.xor_zero, decodeWord_encodeWord]
    exact ⟨rfl, rfl⟩
  · have kept : dataField (encodeWord d ^^^ e) = d ^^^ 0#4 := (dataField_encodeWord_xor d e).trans (congrArg _ low)
    rw [decodeWord_data_of_popcount_one d one]
    exact (kept.trans BitVec.xor_zero).symm

end Sys2Proof.Machine
end

section
/-! PROOF. The guarantees of the pair (42_decoder.md R119 to R127; 70_reset_and_hazards.md R175). -/

namespace Sys2Proof.Machine

/-- Settles O15: the error's syndrome selects its position, whatever the codeword. -/
theorem singleBitErrorsAreCorrected : Obligations.SingleBitErrorsAreCorrected := by
  intro d i s
  refine ⟨_, encodeWord d, exec_enc d s, rfl, ?_, errorSyndrome_ne_zero i⟩
  rw [exec_dec, decodeWord_flipAt]
  rfl

/-- Settles O16: a codeword has syndrome 000, which selects no position. -/
theorem uncorruptedCodewordsDecodeToTheirData : Obligations.UncorruptedCodewordsDecodeToTheirData := by
  intro d s
  refine ⟨_, encodeWord d, exec_enc d s, rfl, ?_⟩
  rw [exec_dec, decodeWord_encodeWord]
  rfl

/-- A pattern of weight 2 is no codeword, so the decoder inverts a third position and is left with a codeword of weight 3. -/
theorem exists_third_position {e : Code} (two : popcount e = 2) :
    ∃ i : Fin 7, syndrome e = errorSyndrome i ∧ corrected synTable e = flipAt e i ∧ e.getLsbD (6 - i.val) = false ∧
      popcount (corrected synTable e) = 3 := by
  have nonzero : syndrome e ≠ 0b000#3 := fun zero => by
    have weight := popcount_of_isCodeword ((isCodeword_iff e).mpr zero)
    omega
  obtain ⟨i, syn⟩ := exists_errorSyndrome nonzero
  have inverted : corrected synTable e = flipAt e i := by rw [corrected, ← syn, mask_errorSyndrome, flipAt]
  have codeword : popcount (flipAt e i) = 0 ∨ popcount (flipAt e i) = 3 ∨ popcount (flipAt e i) = 4 ∨
      popcount (flipAt e i) = 7 := popcount_of_isCodeword (inverted ▸ isCodeword_corrected e)
  rw [inverted]
  refine ⟨i, syn.symm, rfl, ?_⟩
  rw [popcount_flipAt, two] at codeword ⊢
  cases bit : e.getLsbD (6 - i.val) with
  | false => exact ⟨rfl, rfl⟩
  | true => simp [bit] at codeword

theorem xor_encodeWord_corrected (d : Data) (e : Code) :
    encodeWord d ^^^ corrected synTable (encodeWord d ^^^ e) = corrected synTable e := by
  rw [corrected_encodeWord_xor, ← BitVec.xor_assoc, BitVec.xor_self, BitVec.zero_xor]

/-- Settles O17: the decoder's action on the pattern alone decides each clause. -/
theorem multiBitErrorsGiveWrongData : Obligations.MultiBitErrorsGiveWrongData := by
  intro d e s weight
  refine ⟨_, _, _, exec_dec _ s, decodeWord_data_ne d weight, fun two => ?_, ?_, fun codeword => ⟨?_, ?_⟩⟩
  · obtain ⟨i, syn, inverted, zero, three⟩ := exists_third_position two
    refine ⟨?_, corrected_eq_encodeWord _, (congrArg popcount (xor_encodeWord_corrected d e)).trans three, i, ?_, zero⟩
    · exact fun zero => errorSyndrome_ne_zero i (syn.symm.trans ((syndrome_encodeWord_xor d e).symm.trans zero))
    · exact (corrected_encodeWord_xor synTable d e).trans (by rw [inverted, flipAt, flipAt, BitVec.xor_assoc])
  · rw [isCodeword_iff, ← syndrome_encodeWord_xor d e]
    rfl
  · have zero : syndrome (encodeWord d ^^^ e) = 0b000#3 :=
      (syndrome_encodeWord_xor d e).trans ((isCodeword_iff e).mp codeword)
    exact congrArg Prod.fst (decodeWith_of_pos_none ((pos_eq_none_iff synTable _).mpr (.inl zero)))
  · have weights := popcount_of_isCodeword codeword
    omega

/-- A codeword within distance 1 of a word is what the decoder corrects the word to (R125). -/
theorem eq_corrected_of_distance_le_one {c k : Code} (codeword : IsCodeword k) (near : distance c k ≤ 1) :
    k = corrected synTable c := by
  obtain ⟨d, rfl⟩ := codeword
  have received : c = encodeWord d ^^^ (c ^^^ encodeWord d) := by
    rw [BitVec.xor_comm c, ← BitVec.xor_assoc, BitVec.xor_self, BitVec.zero_xor]
  obtain zero | one : popcount (c ^^^ encodeWord d) = 0 ∨ popcount (c ^^^ encodeWord d) = 1 :=
    Nat.le_one_iff_eq_zero_or_eq_one.mp near
  · rw [BitVec.xor_eq_zero_iff.mp ((popcount_eq_zero_iff _).mp zero)]
    exact congrArg (fun out => out.2.2) (decodeWord_encodeWord d).symm
  · obtain ⟨i, error⟩ := (popcount_eq_one_iff _).mp one
    rw [received, error]
    exact congrArg (fun out => out.2.2) (decodeWord_flipAt d i).symm

/-- Settles O18: the corrected word is a codeword within distance 1, and every such codeword is decoded to. -/
theorem decFindsTheNearestCodeword : Obligations.DecFindsTheNearestCodeword := fun c s =>
  ⟨_, corrected synTable c, (decodeWord c).1, exec_dec c s, rfl, rfl, isCodeword_corrected c,
    distance_corrected_le_one synTable c, corrected_eq_encodeWord c, fun _ => eq_corrected_of_distance_le_one⟩

theorem shownSyndrome_eq (s : State) (c : Code) : shownSyndrome s c = some (syndrome c) := rfl

/-- Each syndrome is that of sixteen words, one for each data block; counted over all 128 words (R126). -/
theorem countP_syndrome_eq (y : Syn) : (List.range 128).countP (fun n => syndrome (BitVec.ofNat 7 n) = y) = 16 := by
  revert y
  decide

/-- Settles O19: what DEC shows is the syndrome net, whatever the state. -/
theorem sixteenInputsShowEachSyndrome : Obligations.SixteenInputsShowEachSyndrome := by
  intro s
  simp only [shownSyndrome_eq, Option.some_inj, isCodeword_iff, implies_true, and_true]
  exact countP_syndrome_eq

theorem dataField_oneAt_of_parity {i : Fin 7} (h : 4 ≤ i.val) : dataField (oneAt i) = 0#4 := by
  revert i
  decide

theorem flipAt_ne (w : Code) (i : Fin 7) : w ≠ flipAt w i := fun same =>
  oneAt_ne_zero i (xor_left_eq_self_iff.mp same.symm)

/-- Settles O20: the error is corrected, and lies outside the data bits. -/
theorem parityBitErrorsKeepTheData : Obligations.ParityBitErrorsKeepTheData := by
  intro d i s parityBit
  have kept : dataField (flipAt (encodeWord d) i) = d := by
    rw [flipAt, dataField_encodeWord_xor, dataField_oneAt_of_parity parityBit, BitVec.xor_zero]
  have decoded := decodeWord_flipAt d i
  exact ⟨_, encodeWord d, exec_dec _ s, congrArg (fun out : Data × Syn × Code => some out.1) decoded, kept,
    congrArg (fun out : Data × Syn × Code => some out.2.2) decoded, flipAt_ne _ i⟩

theorem oneAt_injective {i j : Fin 7} (h : oneAt i = oneAt j) : i = j := by
  apply errorSyndrome_injective
  rw [← syndrome_oneAt, h, syndrome_oneAt]

/-- A table corrects every single error exactly when it sends each position's syndrome to the position (R120). -/
theorem correctsSingleErrors_iff (table : SynTable) :
    CorrectsSingleErrors table ↔ ∀ i : Fin 7, table (errorSyndrome i) = some i := by
  constructor
  · intro corrects i
    have removed : corrected table (oneAt i) = 0#7 := by
      have decoded := congrArg (fun out => out.2.2) (corrects 0#4 i)
      rwa [encodeWord_zero, flipAt, BitVec.zero_xor] at decoded
    have sameMask : oneAt i = mask table (errorSyndrome i) := by
      rw [← syndrome_oneAt]
      exact BitVec.xor_eq_zero_iff.mp removed
    rw [← pos_of_ne_zero table (errorSyndrome_ne_zero i)]
    cases selected : pos table (errorSyndrome i) with
    | none => exact absurd (sameMask.trans (mask_of_pos_none selected)) (oneAt_ne_zero i)
    | some p => rw [oneAt_injective (sameMask.trans (mask_of_pos_some selected))]
  · exact fun selects d i => decodeWith_flipAt (selects i) d

/-- Settles O21: the positions' syndromes are the syndromes that are not 000. -/
theorem syndromeTableIsForced : Obligations.SyndromeTableIsForced := by
  refine fun table => ⟨correctsSingleErrors_iff table, (correctsSingleErrors_iff table).trans ⟨fun selects y nonzero => ?_,
    fun agrees i => (agrees _ (errorSyndrome_ne_zero i)).trans ((synTable_eq_some_iff _ _).mpr rfl)⟩⟩
  obtain ⟨i, rfl⟩ := exists_errorSyndrome nonzero
  rw [selects i, (synTable_eq_some_iff _ _).mpr rfl]

end Sys2Proof.Machine
end

section
/-! PROOF. Bit sequences read as polynomials over GF(2), and the division's loop as polynomial division (00_scope.md R11;
40_division.md R80 to R86). -/

namespace Sys2Proof.Machine

open Polynomial

/-! ## The polynomial of a sequence -/

@[simp] theorem polyOf_nil : polyOf [] = 0 := rfl

theorem polyOf_true_cons (bs : Bits) : polyOf (true :: bs) = X ^ bs.length + polyOf bs := rfl

@[simp] theorem polyOf_false_cons (bs : Bits) : polyOf (false :: bs) = polyOf bs := zero_add _

theorem polyOf_append (a b : Bits) : polyOf (a ++ b) = polyOf a * X ^ b.length + polyOf b := by
  induction a with
  | nil => simp
  | cons bit a ih =>
    cases bit with
    | false => rw [List.cons_append, polyOf_false_cons, ih, polyOf_false_cons]
    | true =>
      rw [List.cons_append, polyOf_true_cons, ih, polyOf_true_cons, List.length_append, pow_add]
      ring

/-- Over GF(2) the XOR of two sequences of equal length is the sum of their polynomials (R11, R13). -/
theorem polyOf_xorSeq {a b : Bits} (h : a.length = b.length) : polyOf (xorSeq a b) = polyOf a + polyOf b := by
  induction a generalizing b with
  | nil => rw [List.eq_nil_of_length_eq_zero h.symm]; exact (add_zero 0).symm
  | cons x a ih =>
    cases b with
    | nil => cases h
    | cons y b =>
      have len : a.length = b.length := Nat.succ.inj h
      have tail : polyOf (List.zipWith xor a b) = polyOf a + polyOf b := ih len
      have tailLen : (List.zipWith xor a b).length = b.length := by simp [len]
      have twice : (X ^ b.length + X ^ b.length : (ZMod 2)[X]) = 0 := CharTwo.add_self_eq_zero _
      cases x <;> cases y <;> simp only [xorSeq, List.zipWith_cons_cons, Bool.xor_false, Bool.xor_true, Bool.not_false,
        Bool.not_true, polyOf_true_cons, polyOf_false_cons, tail, tailLen, len]
      · ring
      · ring
      · linear_combination -twice

theorem degree_polyOf_lt (bits : Bits) : (polyOf bits).degree < bits.length := by
  induction bits with
  | nil => simp
  | cons b bs ih =>
    have shorter : (polyOf bs).degree < (bs.length + 1 : ℕ) := ih.trans (by exact_mod_cast Nat.lt_succ_self _)
    cases b with
    | false => rwa [polyOf_false_cons, List.length_cons]
    | true =>
      rw [polyOf_true_cons, List.length_cons]
      refine (degree_add_le _ _).trans_lt (max_lt ?_ shorter)
      rw [degree_X_pow]
      exact_mod_cast Nat.lt_succ_self _

theorem monic_polyOf_true_cons (bs : Bits) : (polyOf (true :: bs)).Monic := monic_X_pow_add (degree_polyOf_lt bs)

theorem degree_polyOf_true_cons (bs : Bits) : (polyOf (true :: bs)).degree = bs.length := by
  rw [polyOf_true_cons, degree_add_eq_left_of_degree_lt, degree_X_pow]
  rw [degree_X_pow]
  exact degree_polyOf_lt bs

/-- Only an all-zero sequence has the zero polynomial. -/
theorem eq_replicate_of_polyOf_eq_zero {bits : Bits} (h : polyOf bits = 0) : bits = List.replicate bits.length false := by
  induction bits with
  | nil => rfl
  | cons b bs ih =>
    cases b with
    | false =>
      rw [polyOf_false_cons] at h
      rw [List.length_cons, List.replicate_succ, ← ih h]
    | true => exact absurd h (monic_polyOf_true_cons bs).ne_zero

theorem polyOf_replicate_false (n : Nat) : polyOf (List.replicate n false) = 0 := by
  induction n with
  | zero => rfl
  | succ n ih => rw [List.replicate_succ, polyOf_false_cons, ih]

theorem polyOf_true_cons_ne {a b : Bits} (len : a.length = b.length) : polyOf (true :: a) ≠ polyOf b := by
  intro same
  have below : (polyOf (true :: a)).degree < b.length := same ▸ degree_polyOf_lt b
  rw [degree_polyOf_true_cons, len] at below
  exact lt_irrefl _ below

/-- Sequences of equal length with the same polynomial are equal. -/
theorem polyOf_injective {a b : Bits} (len : a.length = b.length) (h : polyOf a = polyOf b) : a = b := by
  induction a generalizing b with
  | nil => exact (List.eq_nil_of_length_eq_zero len.symm).symm
  | cons x a ih =>
    cases b with
    | nil => cases len
    | cons y b =>
      have tailLen : a.length = b.length := Nat.succ.inj len
      cases x <;> cases y
      case false.false =>
        rw [polyOf_false_cons, polyOf_false_cons] at h
        rw [ih tailLen h]
      case false.true =>
        rw [polyOf_false_cons] at h
        exact absurd h.symm (polyOf_true_cons_ne tailLen.symm)
      case true.false =>
        rw [polyOf_false_cons] at h
        exact absurd h (polyOf_true_cons_ne tailLen)
      case true.true =>
        rw [polyOf_true_cons, polyOf_true_cons, tailLen, add_right_inj] at h
        rw [ih tailLen h]

/-! ## The loop -/

variable {divisor : Bits}

/-- Reduction by a divisor with leading bit 1 clears the window's leading bit and changes its polynomial by a multiple of the
divisor's (R81). -/
theorem reduceWindow_spec {window : Bits} (lead : divisor.head? = some true) (len : window.length = divisor.length) :
    ∃ rest, reduceWindow divisor window = false :: rest ∧ rest.length + 1 = divisor.length ∧
      polyOf divisor ∣ polyOf rest - polyOf window := by
  obtain ⟨ds, rfl⟩ := List.head?_eq_some_iff.mp lead
  cases window with
  | nil => cases len
  | cons w ws =>
    have tailLen : ws.length = ds.length := Nat.succ.inj len
    cases w with
    | false => exact ⟨ws, rfl, len, by simp⟩
    | true =>
      have sum := polyOf_xorSeq len
      refine ⟨xorSeq ws ds, rfl, by simp [xorSeq, tailLen], ?_⟩
      rw [show xorSeq (true :: ws) (true :: ds) = false :: xorSeq ws ds from rfl, polyOf_false_cons] at sum
      rw [sum, add_sub_cancel_left]

/-- The window of R81's loop is congruent, modulo the divisor, to the window before it with the remaining bits behind it. -/
theorem foldl_divStep_congr (lead : divisor.head? = some true) (rest : Bits) {window : Bits}
    (len : window.length = divisor.length) :
    polyOf divisor ∣ polyOf (rest.foldl (divStep divisor) window) - polyOf (window ++ rest) := by
  induction rest generalizing window with
  | nil => simp
  | cons b bs ih =>
    obtain ⟨low, reduced, lowLen, congr⟩ := reduceWindow_spec lead len
    have shifted : divStep divisor window b = low ++ [b] := by rw [divStep, reduced]; rfl
    have loop := ih (window := low ++ [b]) (by simpa using lowLen)
    rw [List.foldl_cons, shifted]
    have step : polyOf divisor ∣ polyOf (low ++ [b] ++ bs) - polyOf (window ++ b :: bs) := by
      rw [List.append_assoc, List.singleton_append, polyOf_append, polyOf_append window, add_sub_add_right_eq_sub, ← sub_mul]
      exact congr.mul_right _
    simpa using dvd_add loop step

theorem monic_polyOf_of_lead (lead : divisor.head? = some true) : (polyOf divisor).Monic := by
  obtain ⟨ds, rfl⟩ := List.head?_eq_some_iff.mp lead
  exact monic_polyOf_true_cons ds

/-- A sequence shorter than a divisor with leading bit 1 is its own remainder. -/
theorem polyOf_modByMonic_of_shorter (lead : divisor.head? = some true) {bits : Bits}
    (shorter : bits.length + 1 = divisor.length) : polyOf bits %ₘ polyOf divisor = polyOf bits := by
  rw [modByMonic_eq_self_iff (monic_polyOf_of_lead lead)]
  obtain ⟨ds, rfl⟩ := List.head?_eq_some_iff.mp lead
  rw [degree_polyOf_true_cons, ← Nat.succ.inj shorter]
  exact degree_polyOf_lt bits

/-- The division leaves a 0 above the polynomial remainder (R82). -/
theorem divideWindow_spec {dividend : Bits} (le : divisor.length ≤ dividend.length) (lead : divisor.head? = some true) :
    ∃ w, divideWindow dividend divisor = false :: w ∧ w.length + 1 = divisor.length ∧
      polyOf w = polyOf dividend %ₘ polyOf divisor := by
  have pos : 1 ≤ divisor.length := by
    obtain ⟨ds, rfl⟩ := List.head?_eq_some_iff.mp lead
    exact Nat.succ_pos _
  have first : (dividend.take divisor.length).length = divisor.length := by rwa [List.length_take, min_eq_left]
  have loop := foldl_divStep_congr lead (dividend.drop divisor.length) first
  rw [List.take_append_drop] at loop
  obtain ⟨w, reduced, len, congr⟩ := reduceWindow_spec lead
    (foldl_divStep_length divisor pos (dividend.drop divisor.length) _ first)
  refine ⟨w, reduced, len, ?_⟩
  calc polyOf w = polyOf w %ₘ polyOf divisor := (polyOf_modByMonic_of_shorter lead len).symm
    _ = polyOf dividend %ₘ polyOf divisor :=
      modByMonic_eq_of_dvd_sub (monic_polyOf_of_lead lead) (by simpa using dvd_add congr loop)

/-- The primitive answers exactly on its domain, with the window of R81's computation (R80). -/
theorem modulo2Divide_eq_ok_iff (dividend w : Bits) :
    modulo2Divide dividend divisor = .ok w ↔
      (1 ≤ divisor.length ∧ divisor.length ≤ dividend.length ∧ divisor.head? = some true) ∧
        divideWindow dividend divisor = w := by
  unfold modulo2Divide
  split
  next lengths =>
    split
    next lead => simp [lengths, lead]
    next lead => simp [lead]
  next lengths =>
    refine iff_of_false nofun ?_
    rintro ⟨⟨pos, le, -⟩, -⟩
    exact lengths ⟨pos, le⟩

/-- What the primitive answers below the leading 0 is the polynomial remainder (R82). -/
theorem polyOf_of_modulo2Divide {dividend w : Bits} (h : modulo2Divide dividend divisor = .ok (false :: w)) :
    polyOf w = polyOf dividend %ₘ polyOf divisor := by
  obtain ⟨⟨-, le, lead⟩, window⟩ := (modulo2Divide_eq_ok_iff dividend _).mp h
  obtain ⟨v, same, -, remainder⟩ := divideWindow_spec le lead
  cases window.symm.trans same
  exact remainder

/-- A dividend whose polynomial the divisor's divides leaves an all-zero window (R86). -/
theorem modulo2Divide_of_dvd {dividend : Bits} (pos : 1 ≤ divisor.length) (le : divisor.length ≤ dividend.length)
    (lead : divisor.head? = some true) (multiple : polyOf divisor ∣ polyOf dividend) :
    modulo2Divide dividend divisor = .ok (List.replicate divisor.length false) := by
  obtain ⟨w, window, len, remainder⟩ := divideWindow_spec le lead
  rw [(modByMonic_eq_zero_iff_dvd (monic_polyOf_of_lead lead)).mpr multiple] at remainder
  rw [modulo2Divide_ok _ _ pos le lead, window, eq_replicate_of_polyOf_eq_zero remainder, ← List.replicate_succ, len]

end Sys2Proof.Machine
end

section
/-! PROOF. The statements on the division primitive, and the codewords as multiples of g (40_division.md R80 to R86;
41_encoder.md R95). -/

namespace Sys2Proof.Machine

open Polynomial

/-- Settles O23: the loop keeps the window congruent to the bits taken in, and its last reduction leaves less than the divisor. -/
theorem divisionIsThePolynomialRemainder : Obligations.DivisionIsThePolynomialRemainder := by
  intro dividend divisor pos le lead
  obtain ⟨w, window, len, remainder⟩ := divideWindow_spec le lead
  exact ⟨w, by rw [modulo2Divide_ok _ _ pos le lead, window], len, remainder⟩

/-- Settles O27: the domain is the two guards of the primitive, and its window is as long as the divisor. -/
theorem divisionAnswersExactlyOnItsDomain : Obligations.DivisionAnswersExactlyOnItsDomain := by
  refine fun dividend divisor => ⟨?_, fun w answered => ?_, fun shorter => ?_⟩
  · simp only [modulo2Divide_eq_ok_iff, exists_and_left, exists_eq', and_true]
  · obtain ⟨⟨pos, le, -⟩, rfl⟩ := (modulo2Divide_eq_ok_iff dividend w).mp answered
    exact divideWindow_length dividend divisor pos le
  · exact if_neg fun lengths => absurd lengths.2 (Nat.not_le.mpr shorter)

/-- Settles O26: an all-zero dividend and a multiple of g have remainder 0, and a dividend as long as the divisor leaves the loop
no bit to shift in. -/
theorem divisionCornerCases : Obligations.DivisionCornerCases := by
  refine ⟨fun n divisor pos le lead => ?_, fun dividend divisor pos len lead => ?_, rfl, fun dividend le multiple =>
    modulo2Divide_of_dvd (by decide) le rfl multiple⟩
  · refine modulo2Divide_of_dvd pos (by rwa [List.length_replicate]) lead ?_
    rw [polyOf_replicate_false]
    exact dvd_zero _
  · rw [modulo2Divide_ok _ _ pos len.le lead, divideWindow, len, List.drop_length, List.take_length]
    rfl

theorem xorSeq_length_of_eq {a b : Bits} {n : Nat} (ha : a.length = n) (hb : b.length = n) : (xorSeq a b).length = n :=
  (xorSeq_length a b (ha.trans hb.symm)).trans ha

/-- The remainder by G of an XOR is the XOR of the remainders (R85). -/
theorem modulo2Divide_gSeq_xorSeq {a b : Bits} (len : a.length = b.length) (le : 4 ≤ a.length) : ∃ wa wb : Bits,
    wa.length = 3 ∧ wb.length = 3 ∧ modulo2Divide a gSeq = .ok (false :: wa) ∧ modulo2Divide b gSeq = .ok (false :: wb) ∧
    modulo2Divide (xorSeq a b) gSeq = .ok (false :: xorSeq wa wb) := by
  have divides (bits : Bits) (le : 4 ≤ bits.length) :=
    divisionIsThePolynomialRemainder bits gSeq (by decide) le rfl
  obtain ⟨wa, answerA, lenA, remA⟩ := divides a le
  obtain ⟨wb, answerB, lenB, remB⟩ := divides b (len ▸ le)
  obtain ⟨w, answer, lenW, rem⟩ := divides (xorSeq a b) ((xorSeq_length a b len).symm ▸ le)
  have threeA : wa.length = 3 := Nat.succ.inj lenA
  have threeB : wb.length = 3 := Nat.succ.inj lenB
  have sum : polyOf w = polyOf (xorSeq wa wb) := by
    rw [rem, polyOf_xorSeq len, add_modByMonic, ← remA, ← remB, polyOf_xorSeq (threeA.trans threeB.symm)]
  have window : w = xorSeq wa wb :=
    polyOf_injective ((Nat.succ.inj lenW).trans (xorSeq_length_of_eq threeA threeB).symm) sum
  exact ⟨wa, wb, threeA, threeB, answerA, answerB, window ▸ answer⟩

/-- The syndrome is the XOR of the positions' syndromes over the 1 bits of the word (R85). -/
theorem syndrome_eq_foldl (c : Code) :
    syndrome c = (List.finRange 7).foldl (fun y i => if c.getLsbD (6 - i.val) then y ^^^ errorSyndrome i else y) 0b000#3 := by
  revert c
  decide

/-- Settles O24: polynomial remainders add, and a window is determined by its polynomial. -/
theorem divisionByGIsLinear : Obligations.DivisionByGIsLinear := by
  refine ⟨fun a b len le => ?_, fun c => ⟨_, modulo2Divide_code c, ?_⟩⟩
  · obtain ⟨wa, wb, lenA, lenB, answerA, answerB, answer⟩ := modulo2Divide_gSeq_xorSeq len le
    refine ⟨_, _, _, answerA, answerB, answer, ?_⟩
    rw [lowThree_cons _ lenA, lowThree_cons _ lenB, lowThree_cons _ (xorSeq_length_of_eq lenA lenB)]
  · rw [lowThree_cons_toSeq, ofSeq_toSeq, syndrome_eq_foldl]

theorem syndrome_shiftLeft (j : Fin 7) : syndrome (1#7 <<< j.val) = xPowMod j := by
  revert j
  decide

/-- The word whose only 1 is vector bit j, in sequence order. -/
theorem toSeq_shiftLeft (j : Fin 7) :
    toSeq (1#7 <<< j.val) = List.replicate (6 - j.val) false ++ true :: List.replicate j.val false := by
  revert j
  decide

theorem polyOf_toSeq_shiftLeft (j : Fin 7) : polyOf (toSeq (1#7 <<< j.val)) = X ^ j.val := by
  rw [toSeq_shiftLeft, polyOf_append, polyOf_replicate_false, zero_mul, zero_add, polyOf_true_cons, polyOf_replicate_false,
    add_zero, List.length_replicate]

theorem polyOf_gSeq : polyOf gSeq = X ^ 3 + X + 1 := by
  rw [show gSeq = [true, false, true, true] from rfl]
  simp [polyOf_true_cons, add_assoc]

/-- Settles O25: a power of x is a one-hot dividend, and the positions' syndromes are all the values that are not 000. -/
theorem powersOfXModuloG : Obligations.PowersOfXModuloG := by
  have rows (j : Fin 7) : modulo2Divide (toSeq (1#7 <<< j.val)) gSeq = .ok (false :: toSeq (xPowMod j)) := by
    rw [modulo2Divide_code, syndrome_shiftLeft]
  refine ⟨fun j => ⟨rows j, ?_⟩, polyOf_gSeq, fun y nonzero => ?_⟩
  · rw [polyOf_of_modulo2Divide (rows j), polyOf_toSeq_shiftLeft]
  · obtain ⟨i, rfl⟩ := exists_errorSyndrome nonzero
    refine ⟨Fin.rev i, rfl, fun k same => ?_⟩
    have row : errorSyndrome (Fin.rev k) = errorSyndrome i := by rw [← same, errorSyndrome, Fin.rev_rev]
    rw [← errorSyndrome_injective row, Fin.rev_rev]

/-- The codeword's polynomial is the data's times x^3, plus the remainder (R95). -/
theorem polyOf_encodeWord (d : Data) :
    polyOf (toSeq (encodeWord d)) = polyOf (toSeq d) * X ^ 3 + (polyOf (toSeq d) * X ^ 3) %ₘ polyOf gSeq := by
  have dividend : polyOf (toSeq d ++ [false, false, false]) = polyOf (toSeq d) * X ^ 3 := by
    rw [polyOf_append]
    simp
  rw [← dividend, ← polyOf_of_modulo2Divide (modulo2Divide_encDividend d), toSeq_encodeWord, polyOf_append, toSeq_length,
    dividend]

/-- Settles O5: over GF(2) the remainder added is the remainder taken away, which leaves a multiple of g. -/
theorem codewordsAreMultiplesOfG : Obligations.CodewordsAreMultiplesOfG := by
  intro d s
  have difference := polyOf_encodeWord d
  rw [← CharTwo.sub_eq_add] at difference
  have multiple : polyOf gSeq ∣ polyOf (toSeq (encodeWord d)) := by
    rw [difference]
    exact dvd_sub_comm.mp (dvd_modByMonic_sub _ _)
  exact ⟨encodeWord d, exec_enc d s, polyOf_encodeWord d, difference, multiple,
    modulo2Divide_of_dvd (by decide) (by rw [toSeq_length]; decide) rfl multiple⟩

end Sys2Proof.Machine
end

section
/-! PROOF. Sequences cut into groups, and their groups through decoder and channel (20_memory.md R43 to R47, R56). -/

namespace Sys2Proof.Machine

/-! ## Groups -/

/-- Induction along the partition of R44, R45 and R56: a sequence is shorter than a group, or a full group with a sequence behind
it. -/
theorem group_induction {n : Nat} (pos : 1 ≤ n) {P : Bits → Prop} (short : ∀ bits : Bits, bits.length < n → P bits)
    (full : ∀ first rest : Bits, first.length = n → P rest → P (first ++ rest)) (bits : Bits) : P bits := by
  induction len : bits.length using Nat.strong_induction_on generalizing bits with
  | _ m ih =>
    by_cases h : bits.length < n
    · exact short bits h
    · have first : (bits.take n).length = n := by rw [List.length_take]; omega
      have rest : P (bits.drop n) := ih _ (by rw [List.length_drop]; omega) _ rfl
      rw [← List.take_append_drop n bits]
      exact full _ _ first rest

/-- A sequence that is shorter than a group and not empty is its only group. -/
theorem groupsOf_short {n : Nat} {bits : Bits} (some_bit : bits ≠ []) (h : bits.length < n) : groupsOf n bits = [bits] := by
  cases bits with
  | nil => exact absurd rfl some_bit
  | cons b bs =>
    rw [groupsOf, List.length_cons, groupsFuel, List.take_of_length_le h.le, List.drop_of_length_le h.le]
    cases bs.length <;> rfl

/-- The groups of a concatenation of full groups are those groups. -/
theorem groupsOf_flatten_of_full {n : Nat} (pos : 1 ≤ n) (groups : List Bits) (full : ∀ g ∈ groups, g.length = n) :
    groupsOf n groups.flatten = groups := by
  induction groups with
  | nil => rfl
  | cons g gs ih =>
    rw [List.forall_mem_cons] at full
    obtain ⟨fullHead, fullTail⟩ := full
    rw [List.flatten_cons, groupsOf_append n pos g _ fullHead, ih fullTail]

theorem length_flatten_of_full {n : Nat} {groups : List Bits} (full : ∀ g ∈ groups, g.length = n) :
    groups.flatten.length = n * groups.length := by
  rw [List.length_flatten, List.map_congr_left full, List.map_const', List.sum_replicate_nat, Nat.mul_comm]

/-- A sequence of k whole groups has k groups. -/
theorem groupsOf_length {n k : Nat} (pos : 1 ≤ n) {bits : Bits} (h : bits.length = n * k) : (groupsOf n bits).length = k := by
  have full := groupsOf_all_full n pos bits (by rw [h, Nat.mul_mod_right])
  have len := length_flatten_of_full full
  rw [groupsOf_flatten n pos, h] at len
  exact (Nat.eq_of_mul_eq_mul_left pos len).symm

/-! ## The return path -/

/-- Decoding whole words completes with their data blocks in order (R45). -/
theorem callAll_dec_ok (s : State) {bits : Bits} (whole : bits.length % 7 = 0) :
    ∃ t, callAll .decCodeI .decDataO s (groupsOf 7 bits) =
      .ok ((groupsOf 7 bits).flatMap (fun g => toSeq (decodeWord (ofSeq 7 g)).1), t) :=
  callAll_ok _ (fun g hg s => ⟨_, call_dec s g (groupsOf_all_full 7 (by decide) bits whole g hg)⟩) s

/-- A call with a block that is not as wide as the port is refused (R150). -/
theorem call_badLength (s : State) (port : InPort) (out : OutPort) {bits : Bits} (h : bits.length ≠ port.width) :
    call s port bits out = .error (.badLength port bits.length) := by
  have width : (blockOf port bits).bits.length = bits.length := List.length_map _
  have refused := step_drive_badLength s (blockOf port bits) (width.symm ▸ h)
  rw [width] at refused
  simp only [call, refused]
  rfl

/-- An incomplete last word is presented after the whole ones, and refused (R150; log entry 9). -/
theorem callAll_dec_incomplete (bits : Bits) (incomplete : bits.length % 7 ≠ 0) (s : State) :
    callAll .decCodeI .decDataO s (groupsOf 7 bits) = .error (.badLength .decCodeI (bits.length % 7)) := by
  induction bits using group_induction (n := 7) (by decide) generalizing s with
  | short bits h =>
    have some_bit : bits ≠ [] := by rintro rfl; exact incomplete rfl
    rw [groupsOf_short some_bit h, callAll, call_badLength s _ _ h.ne, Nat.mod_eq_of_lt h]
  | full first rest h ih =>
    have behind : (first ++ rest).length % 7 = rest.length % 7 := by rw [List.length_append]; omega
    rw [behind] at incomplete ⊢
    rw [groupsOf_append 7 (by decide) first rest h, callAll, call_dec s first h]
    simp only [ih incomplete]

/-- Settles O47: whole words are decoded in order, and an incomplete last one is refused. -/
theorem unitsAreDecodedInOrderAndTruncated : Obligations.UnitsAreDecodedInOrderAndTruncated := by
  refine fun bits len s => ⟨fun whole => ⟨groupsOf_all_full 7 (by decide) bits whole, ?_⟩, fun incomplete => ?_⟩
  · obtain ⟨t, decoded⟩ := callAll_dec_ok s whole
    exact ⟨t, by simp only [receiveUnit, decoded]⟩
  · simp only [receiveUnit, callAll_dec_incomplete bits incomplete s]

/-! ## Bytes -/

theorem bitsOfBytes_cons (b : BitVec 8) (bs : List (BitVec 8)) : bitsOfBytes (b :: bs) = toSeq b ++ bitsOfBytes bs :=
  List.flatMap_cons

theorem bitsOfBytes_length (bytes : List (BitVec 8)) : (bitsOfBytes bytes).length = 8 * bytes.length := by
  induction bytes with
  | nil => rfl
  | cons b bs ih => rw [bitsOfBytes_cons, List.length_append, toSeq_length, ih, List.length_cons]; omega

theorem bytesOfBits_short {tail : Bits} (h : tail.length < 8) : bytesOfBits tail = [] := by
  by_cases empty : tail = []
  · rw [empty]
    rfl
  · simp [bytesOfBits, groupsOf_short empty h, h.ne]

theorem bytesOfBits_append (b : BitVec 8) (rest : Bits) : bytesOfBits (toSeq b ++ rest) = b :: bytesOfBits rest := by
  rw [bytesOfBits, groupsOf_append 8 (by decide) _ _ (toSeq_length b)]
  simp [bytesOfBits, ofSeq_toSeq]

/-- The bytes come back, and a trailing group shorter than 8 is discarded (R43). -/
theorem bytesOfBits_bitsOfBytes_append (bytes : List (BitVec 8)) {tail : Bits} (h : tail.length < 8) :
    bytesOfBits (bitsOfBytes bytes ++ tail) = bytes := by
  induction bytes with
  | nil => exact bytesOfBits_short h
  | cons b bs ih => rw [bitsOfBytes_cons, List.append_assoc, bytesOfBits_append, ih]

/-- The codeword of a data block, both as sequences (R4). -/
def codewordOf (g : Bits) : Bits := toSeq (encodeWord (ofSeq 4 g))

theorem codewordOf_length (g : Bits) : (codewordOf g).length = 7 := toSeq_length _

/-- The sequence a unit is sent as: the codewords of its data blocks (R44). -/
def codedUnit (bits : Bits) : Bits := ((groupsOf 4 (pad bits)).map codewordOf).flatten

theorem sendUnit_eq_codedUnit (s : State) (bits : Bits) : ∃ t, sendUnit s bits = .ok (codedUnit bits, t) := by
  rw [codedUnit, ← List.flatMap_def]
  exact sendUnit_ok s bits

theorem codewords_full (groups : List Bits) : ∀ w ∈ groups.map codewordOf, w.length = 7 :=
  List.forall_mem_map.mpr fun g _ => codewordOf_length g

/-- Each data block is sent as one 7-bit group. -/
theorem groupsOf_codedUnit (bits : Bits) : groupsOf 7 (codedUnit bits) = (groupsOf 4 (pad bits)).map codewordOf :=
  groupsOf_flatten_of_full (by decide) _ (codewords_full _)

theorem codedUnit_length (bits : Bits) : (codedUnit bits).length = 7 * (groupsOf 4 (pad bits)).length := by
  rw [codedUnit, length_flatten_of_full (codewords_full _), List.length_map]

/-- Settles O48: a byte is two data blocks, each sent as seven bits. -/
theorem byteUnitsNeedNoPadding : Obligations.ByteUnitsNeedNoPadding := by
  intro bytes s
  have len := bitsOfBytes_length bytes
  have aligned : pad (bitsOfBytes bytes) = bitsOfBytes bytes := pad_of_aligned (by omega)
  have blocks : (groupsOf 4 (pad (bitsOfBytes bytes))).length = 2 * bytes.length :=
    groupsOf_length (by decide) (by rw [aligned, len]; omega)
  obtain ⟨t, sent⟩ := sendUnit_eq_codedUnit s (bitsOfBytes bytes)
  refine ⟨?_, len, aligned, blocks, ⟨codedUnit (bitsOfBytes bytes), t, sent, ?_, ?_⟩,
    fun tail short => bytesOfBits_bitsOfBytes_append bytes short⟩
  · simpa using bytesOfBits_bitsOfBytes_append bytes (tail := []) (by decide)
  · rw [codedUnit_length, blocks]
    omega
  · rw [groupsOf_codedUnit, List.length_map, blocks]

/-! ## The channel -/

/-- The draw for the first of the groups still to come: none where the list of draws has ended (log entry 10). -/
def firstDraw (draws : List Draw) : Draw := draws.head?.join

theorem hitGroups_cons_full (draws : List Draw) {g : Bits} (h : g.length = 7) (gs : List Bits) :
    hitGroups draws (g :: gs) = hitGroup (firstDraw draws) g ++ hitGroups draws.tail gs := by
  cases draws with
  | nil => rfl
  | cons d ds => rw [hitGroups, if_pos h]; rfl

theorem hitGroup_length (draw : Draw) (g : Bits) : (hitGroup draw g).length = g.length := by
  cases draw with
  | none => rfl
  | some i => exact List.length_modify _ _ _

/-- A full group passes with its own draw, before the rest of the unit. -/
theorem channel_append (draws : List Draw) {first : Bits} (rest : Bits) (h : first.length = 7) :
    channel draws (first ++ rest) = hitGroup (firstDraw draws) first ++ channel draws.tail rest := by
  rw [channel, groupsOf_append 7 (by decide) first rest h, hitGroups_cons_full draws h, channel]

/-- An incomplete group passes unmodified (R56). -/
theorem channel_short (draws : List Draw) {bits : Bits} (h : bits.length < 7) : channel draws bits = bits := by
  by_cases empty : bits = []
  · cases draws <;> rw [empty] <;> rfl
  · rw [channel, groupsOf_short empty h]
    cases draws with
    | nil => exact List.append_nil bits
    | cons d ds => rw [hitGroups, if_neg h.ne, hitGroups, List.append_nil]

/-- Position i of a full group is inverted exactly when it is drawn. -/
theorem hitGroup_getElem? (draw : Draw) (g : Bits) (i : Fin 7) :
    (hitGroup draw g)[i.val]? = g[i.val]?.map fun b => b ^^ (draw == some i) := by
  cases draw with
  | none => simp [hitGroup]
  | some k =>
    rw [hitGroup, flipSeq, List.getElem?_modify]
    by_cases same : k = i
    · simp [same]
    · simp [beq_false_of_ne same, Fin.val_ne_of_ne same]

theorem channel_length (bits : Bits) (draws : List Draw) : (channel draws bits).length = bits.length := by
  induction bits using group_induction (n := 7) (by decide) generalizing draws with
  | short bits h => rw [channel_short draws h]
  | full first rest h ih => rw [channel_append draws rest h, List.length_append, List.length_append, hitGroup_length, ih]

/-- Position i of full group k is inverted exactly when the draw for the group is i (R56). -/
theorem channel_getElem?_of_full (bits : Bits) (draws : List Draw) {k : Nat} (hk : k < bits.length / 7) (i : Fin 7) :
    (channel draws bits)[7 * k + i.val]? = (bits[7 * k + i.val]?).map fun b => b ^^ (draws[k]? == some (some i)) := by
  induction bits using group_induction (n := 7) (by decide) generalizing draws k with
  | short bits h => omega
  | full first rest h ih =>
    have hitLen : (hitGroup (firstDraw draws) first).length = 7 := (hitGroup_length _ _).trans h
    rw [channel_append draws rest h]
    cases k with
    | zero =>
      rw [List.getElem?_append_left (by omega), List.getElem?_append_left (by omega), Nat.mul_zero, Nat.zero_add,
        hitGroup_getElem?]
      cases draws with
      | nil => rfl
      | cons d ds => rfl
    | succ k =>
      have index : 7 * (k + 1) + i.val - 7 = 7 * k + i.val := by omega
      have inside : k < rest.length / 7 := by rw [List.length_append] at hk; omega
      rw [List.getElem?_append_right (by omega), List.getElem?_append_right (by omega), hitLen, h, index,
        ih draws.tail inside, List.getElem?_tail]

/-- The bits behind the last full group pass unmodified (R56). -/
theorem channel_getElem?_of_incomplete (bits : Bits) (draws : List Draw) {j : Nat} (hj : 7 * (bits.length / 7) ≤ j) :
    (channel draws bits)[j]? = bits[j]? := by
  induction bits using group_induction (n := 7) (by decide) generalizing draws j with
  | short bits h => rw [channel_short draws h]
  | full first rest h ih =>
    have hitLen : (hitGroup (firstDraw draws) first).length = 7 := (hitGroup_length _ _).trans h
    rw [List.length_append] at hj
    rw [channel_append draws rest h, List.getElem?_append_right (by omega), List.getElem?_append_right (by omega), hitLen, h,
      ih draws.tail (by omega)]

/-- Settles O50: the channel takes one draw for each full group and leaves what is behind them. -/
theorem channelInvertsExactlyTheDrawnPositions : Obligations.ChannelInvertsExactlyTheDrawnPositions := fun draws bits =>
  ⟨channel_length bits draws, fun _ hk i => channel_getElem?_of_full bits draws hk i,
    fun _ hj => channel_getElem?_of_incomplete bits draws hj, rfl, rfl⟩

/-! ## A unit through the channel -/

/-- A codeword hit by one draw of the channel decodes to its data (R119, R121). -/
theorem decodeWord_hitGroup (draw : Draw) (d : Data) :
    (decodeWord (ofSeq 7 (hitGroup draw (toSeq (encodeWord d))))).1 = d := by
  cases draw with
  | none => rw [hitGroup, ofSeq_toSeq, decodeWord_encodeWord]
  | some i => rw [hitGroup, ← toSeq_flipAt, ofSeq_toSeq, decodeWord_flipAt]

/-- The decoder answers a data block's codeword, hit by one draw, with the block. -/
theorem call_dec_hitGroup (s : State) (draw : Draw) {g : Bits} (h : g.length = 4) :
    ∃ t, call s .decCodeI (hitGroup draw (codewordOf g)) .decDataO = .ok (g, t) := by
  have width : (hitGroup draw (codewordOf g)).length = 7 := (hitGroup_length _ _).trans (codewordOf_length g)
  have block : toSeq (decodeWord (ofSeq 7 (hitGroup draw (codewordOf g)))).1 = g := by
    rw [codewordOf, decodeWord_hitGroup, toSeq_ofSeq_of_length h]
  have answer := call_dec s _ width
  rw [block] at answer
  exact ⟨_, answer⟩

/-- Data blocks sent as codewords are decoded to what they were, whatever the channel draws for each. -/
theorem callAll_dec_channel (groups : List Bits) (full : ∀ g ∈ groups, g.length = 4) (draws : List Draw) (s : State) :
    ∃ t, callAll .decCodeI .decDataO s (groupsOf 7 (channel draws (groups.map codewordOf).flatten)) =
      .ok (groups.flatten, t) := by
  induction groups generalizing draws s with
  | nil => exact ⟨s, by cases draws <;> rfl⟩
  | cons g gs ih =>
    rw [List.forall_mem_cons] at full
    obtain ⟨fullHead, fullTail⟩ := full
    have width : (hitGroup (firstDraw draws) (codewordOf g)).length = 7 :=
      (hitGroup_length _ _).trans (codewordOf_length g)
    obtain ⟨t, first⟩ := call_dec_hitGroup s (firstDraw draws) fullHead
    obtain ⟨u, rest⟩ := ih fullTail draws.tail t
    refine ⟨u, ?_⟩
    rw [List.map_cons, List.flatten_cons, channel_append draws _ (codewordOf_length g),
      groupsOf_append 7 (by decide) _ _ width, callAll, first]
    simp only [rest, List.flatten_cons]

/-- Settles O49: each data block survives its own draw, and the padding is cut off. -/
theorem unitsSurviveTheChannel : Obligations.UnitsSurviveTheChannel := by
  intro bits draws s s'
  obtain ⟨t, sent⟩ := sendUnit_eq_codedUnit s bits
  obtain ⟨t', decoded⟩ :=
    callAll_dec_channel (groupsOf 4 (pad bits)) (groupsOf_all_full 4 (by decide) _ (pad_length_mod bits)) draws s'
  rw [← codedUnit, groupsOf_flatten 4 (by decide)] at decoded
  refine ⟨codedUnit bits, channel draws (codedUnit bits), t, t', sent, rfl, ?_⟩
  simp only [receiveUnit, decoded, pad, List.take_left']

end Sys2Proof.Machine
end
